-- ==== Sys2Proof/Word.lean ====
section
/-! DEFINITION. The plainest types of the framer: words, levels and the three lines (spec 00_scope.md section 5). -/

namespace Sys2Proof

/-- `u8`: a character code, a command byte, a container handed to SEND_BITS. -/
abbrev Byte := BitVec 8

/-- `u16`: a segment pattern, sixteen opaque bits (R37). -/
abbrev Pattern := BitVec 16

/-- One bit on the wire; `true` is 1. -/
abbrev Bit := Bool

/-- The level of a line, {0, 1}: the bit sampled from DATA is its level. -/
abbrev Level := Bool

/-- LOW = 0. -/
abbrev Level.low : Level := false

/-- HIGH = 1, the idle level of all three lines (R14). -/
abbrev Level.high : Level := true

/-- The three output lines: chip-select, write-clock, data (R14, R133). -/
inductive Line where
  | cs
  | wr
  | data
  deriving DecidableEq, Repr

/-- One value for each of the three lines. -/
structure Lines (α : Type) where
  cs : α
  wr : α
  data : α
  deriving DecidableEq, Repr

/-- The same value on all three lines. -/
def Lines.all {α : Type} (x : α) : Lines α := ⟨x, x, x⟩

/-- The value kept for one line. -/
def Lines.get {α : Type} (ls : Lines α) : Line → α
  | .cs => ls.cs
  | .wr => ls.wr
  | .data => ls.data

/-- Replace the value kept for one line. -/
def Lines.set {α : Type} (ls : Lines α) (l : Line) (x : α) : Lines α :=
  match l with
  | .cs => { ls with cs := x }
  | .wr => { ls with wr := x }
  | .data => { ls with data := x }

end Sys2Proof
end

