-- ==== Sys2Proof/Config.lean ====
section
/-! DEFINITION. The build's parameters (spec 00_scope.md R5, 10_state.md R17) and the free values of the power-on state. -/

namespace Sys2Proof

/-- The parameters fixed before reset, one field each (R5). The spec gives a value to none of them but N (7 in the
reference configuration); the pin names are not modelled, the lines being CS, WR and DATA. -/
structure Config where
  /-- N, the number of visible digit cells. -/
  n : Nat
  /-- PFX_CMD, the prefix of a system-command frame. -/
  pfxCmd : BitVec 3
  /-- PFX_WR, the prefix of a segment-write frame. -/
  pfxWr : BitVec 3
  /-- CMD_SYS_EN. -/
  cmdSysEn : Byte
  /-- CMD_LCD_ON. -/
  cmdLcdOn : Byte
  /-- CMD_BIAS_COM. -/
  cmdBiasCom : Byte
  /-- GLYPH_SYM_BASE, entries for SPACE..'9'. -/
  glyphSymBase : Vector Pattern 26
  /-- GLYPH_2_SLANT. -/
  glyph2Slant : Pattern
  /-- GLYPH_3_SLANT. -/
  glyph3Slant : Pattern
  /-- SLANTED, the variant compiled in. -/
  slanted : Bool
  /-- GLYPH_LET, entries for '@'..'Z'. -/
  glyphLet : Vector Pattern 27
  /-- INDICATOR_POS. -/
  indicatorPos : Int
  /-- SEG_COLON. -/
  segColon : Pattern
  /-- SEG_DOT. -/
  segDot : Pattern
  /-- T_BIT, in a time unit the spec does not name. -/
  tBit : Nat
  /-- T_SETTLE, in the same unit. -/
  tSettle : Nat
  deriving DecidableEq, Repr

namespace Config

/-- Exactly one bit set, as R5 asks of SEG_COLON and SEG_DOT. -/
def oneHot (p : Pattern) : Bool := (List.range 16).any fun k => p == 1#16 <<< k

/-- The constraints R5 puts on a build: N (D21), the prefixes (D18), INDICATOR_POS (R41), the two symbol bits. -/
abbrev Admissible (c : Config) : Prop :=
  (1 ≤ c.n ∧ c.n ≤ 15) ∧ c.pfxCmd ≠ c.pfxWr ∧ (-1 ≤ c.indicatorPos ∧ c.indicatorPos ≤ (c.n : Int) - 1) ∧
    oneHot c.segColon = true ∧ oneHot c.segDot = true ∧ c.segColon ≠ c.segDot

/-- The fixture TF of 95_test_vectors.md section 1. It is a test's build and no claim about a real device (D24). -/
def fixture : Config where
  n := 7
  pfxCmd := 0b100#3
  pfxWr := 0b101#3
  cmdSysEn := 0x01#8
  cmdLcdOn := 0x03#8
  cmdBiasCom := 0x29#8
  glyphSymBase := Vector.ofFn fun i => 0x2020#16 + BitVec.ofNat 16 i
  glyph2Slant := 0x3032#16
  glyph3Slant := 0x3033#16
  slanted := false
  glyphLet := Vector.ofFn fun i => 0x2040#16 + BitVec.ofNat 16 i
  indicatorPos := 3
  segColon := 0x8000#16
  segDot := 0x0080#16
  tBit := 1
  tSettle := 1

/-- A build that meets R5's constraints. -/
abbrev Build := { c : Config // c.Admissible }

/-- Some admissible build exists: the fixture is one. -/
theorem fixture_admissible : fixture.Admissible := by decide

/-- FREE VALUE (log entry 1): some admissible build, with no body, so nothing but R5's constraints can be proved of
it. The argument only shows Lean that an admissible build exists. -/
opaque someBuild (witness : Inhabited Build) : Build

/-- The build of the device at hand: every parameter OPEN (D17), subject to R5's constraints only. -/
def device : Config := (someBuild ⟨⟨fixture, fixture_admissible⟩⟩).val

theorem device_admissible : device.Admissible := (someBuild ⟨⟨fixture, fixture_admissible⟩⟩).property

/-- FREE VALUE (log entry 2): the level latched on a line at power-on, unspecified (R28, U6). -/
opaque powerOnLevel : Line → Level

/-- FREE VALUE (log entry 3): SHREG at power-on, unspecified (R16, R28). -/
opaque powerOnShreg : Byte

/-- FREE VALUE (log entry 3): BITCNT at power-on, unspecified (R16, R28). -/
opaque powerOnBitcnt : Fin 9

end Config

end Sys2Proof
end

