-- ==== Sys2Proof/Syntax.lean ====
section
/-! DEFINITION. The operations of the framer: one constructor per row of spec/opcode_table.json. -/

namespace Sys2Proof

/-- The eight host operations (43_display_driver.md), the reserved operation codes (R62), and the internal operations
they expand to (40 to 42, R66). The host presents the first nine only (R112). -/
inductive Instr where
  /-- ENABLE (R100). -/
  | enable
  /-- SET_SEGMENTS pos, pat (R101); `pos` is the i8 of the command word. -/
  | setSegments (pos : BitVec 8) (pat : Pattern)
  /-- SET_CHARACTER pos, ch (R102). -/
  | setCharacter (pos : BitVec 8) (ch : Byte)
  /-- SET_STRING text (R103), first character first. -/
  | setString (text : List Byte)
  /-- CLEAR (R106). -/
  | clear
  /-- ALL_ON (R105). -/
  | allOn
  /-- SET_SYMBOL mask (R108); bit 0 colon, bit 1 dot. -/
  | setSymbol (mask : BitVec 2)
  /-- UNSET_SYMBOL mask (R109). -/
  | unsetSymbol (mask : BitVec 2)
  /-- A command word with operation code 0x8..0xF (R62), with the word's other 31 bits. -/
  | reservedOp (low : BitVec 31)
  /-- SYS_CMD cmd (R90). -/
  | sysCmd (cmd : Byte)
  /-- SYS_CMD of CMD_SYS_EN (R68). -/
  | sysCmdSysEn
  /-- SYS_CMD of CMD_LCD_ON (R68). -/
  | sysCmdLcdOn
  /-- SYS_CMD of CMD_BIAS_COM (R68). -/
  | sysCmdBiasCom
  /-- SEG_WRITE pos, p (R92); `pos` is an integer. -/
  | segWrite (pos : Int) (p : Pattern)
  /-- ENCODE ch (R70). -/
  | encodeChar (ch : Byte)
  /-- START_TX (R80). -/
  | startTx
  /-- SEND_BITS value, n (R81). -/
  | sendBits (value : Byte) (n : Nat)
  /-- END_TX (R82). -/
  | endTx
  deriving DecidableEq, Repr

end Sys2Proof
end

