-- ==== Sys2Proof/WellFormed.lean ====
section
/-! DEFINITION. Which operations are well formed as syntax: the operand ranges that hold for every build. -/

namespace Sys2Proof

/-- Operand ranges the types do not already give: LEN is a u8 (R60), the bit count is 1..8 (R81, D23), and SEG_WRITE's
position is in range for some build, -1..14 with N at most 15 (R41, D21). The build's own range is checked by the
machine, as a refusal (R125). -/
def Instr.wellFormed : Instr → Bool
  | .setString text => decide (text.length ≤ 255)
  | .segWrite pos _ => decide (-1 ≤ pos) && decide (pos ≤ 14)
  | .sendBits _ n => decide (1 ≤ n) && decide (n ≤ 8)
  | .enable | .setSegments _ _ | .setCharacter _ _ | .clear | .allOn | .setSymbol _ | .unsetSymbol _
  | .reservedOp _ | .sysCmd _ | .sysCmdSysEn | .sysCmdLcdOn | .sysCmdBiasCom | .encodeChar _ | .startTx | .endTx => true

/-- The operations a command word can name: the host port offers nothing else (R61, R112). -/
def Instr.hasCommandWord : Instr → Bool
  | .enable | .setSegments _ _ | .setCharacter _ _ | .setString _ | .clear | .allOn | .setSymbol _ | .unsetSymbol _
  | .reservedOp _ => true
  | .sysCmd _ | .sysCmdSysEn | .sysCmdLcdOn | .sysCmdBiasCom | .segWrite _ _ | .encodeChar _ | .startTx | .sendBits _ _
  | .endTx => false

end Sys2Proof
end

