-- ==== Sys2Proof/Decode.lean ====
section
/-! DEFINITION. The command word of the host port (spec 30_encoding.md R60 to R62) and the two wire frames (R50 to R58):
decoders and encoders. -/

namespace Sys2Proof

/-! ## The command word -/

/-- What the host hands over for one operation: a 32-bit command word and the text bytes that follow it (R60). -/
structure Command where
  word : BitVec 32
  text : List Byte
  deriving DecidableEq, Repr

namespace Command

/-- OP, bits 31:28. -/
def op (c : Command) : BitVec 4 := c.word.extractLsb' 28 4

/-- RSV, bits 27:24. -/
def rsv (c : Command) : BitVec 4 := c.word.extractLsb' 24 4

/-- A, bits 23:16. -/
def a (c : Command) : BitVec 8 := c.word.extractLsb' 16 8

/-- B, bits 15:0. -/
def b (c : Command) : BitVec 16 := c.word.extractLsb' 0 16

end Command

/-- Why a command word is malformed; the machine's one refusal for all of them is BadCommandWord (R62). -/
inductive BadWord where
  /-- RSV is not 0. -/
  | reservedField
  /-- A is not 0 where the table says 0. -/
  | fieldA
  /-- B, or the part of B the table fixes, is not 0. -/
  | fieldB
  /-- The text bytes handed over are not as many as the word says (log entry 6). -/
  | textLength
  deriving DecidableEq, Repr

/-- Accept an operation that takes no text bytes. -/
def withoutText (c : Command) (i : Instr) : Except BadWord Instr :=
  if c.text = [] then .ok i else .error .textLength

/-- The operation a command names (R61), or what is malformed about it (R62). Total on every word and text. A reserved
operation code is a row of the table and decodes as such, whatever its other bits; the machine refuses it. -/
def decode (c : Command) : Except BadWord Instr :=
  if c.word.msb then withoutText c (.reservedOp (c.word.extractLsb' 0 31))
  else if c.rsv ≠ 0#4 then .error .reservedField
  else match c.op.toNat with
    | 0 => if c.a ≠ 0#8 then .error .fieldA else if c.b ≠ 0#16 then .error .fieldB else withoutText c .enable
    | 1 => withoutText c (.setSegments c.a c.b)
    | 2 =>
      if c.b.extractLsb' 8 8 ≠ 0#8 then .error .fieldB
      else withoutText c (.setCharacter c.a (c.b.extractLsb' 0 8))
    | 3 =>
      if c.b ≠ 0#16 then .error .fieldB
      else if c.text.length = c.a.toNat then .ok (.setString c.text) else .error .textLength
    | 4 => if c.a ≠ 0#8 then .error .fieldA else if c.b ≠ 0#16 then .error .fieldB else withoutText c .clear
    | 5 => if c.a ≠ 0#8 then .error .fieldA else if c.b ≠ 0#16 then .error .fieldB else withoutText c .allOn
    | 6 =>
      if c.a ≠ 0#8 then .error .fieldA else if c.b.extractLsb' 2 14 ≠ 0#14 then .error .fieldB
      else withoutText c (.setSymbol (c.b.extractLsb' 0 2))
    | _ =>
      if c.a ≠ 0#8 then .error .fieldA else if c.b.extractLsb' 2 14 ≠ 0#14 then .error .fieldB
      else withoutText c (.unsetSymbol (c.b.extractLsb' 0 2))

/-- A command word from its four fields (R60). -/
def packWord (op : BitVec 4) (a : BitVec 8) (b : BitVec 16) : BitVec 32 := op ++ 0#4 ++ a ++ b

/-- The command that names a host operation, written from the table of R61; the internal operations have none (R112). -/
def encode : Instr → Option Command
  | .enable => some ⟨packWord 0x0#4 0#8 0#16, []⟩
  | .setSegments pos pat => some ⟨packWord 0x1#4 pos pat, []⟩
  | .setCharacter pos ch => some ⟨packWord 0x2#4 pos (0#8 ++ ch), []⟩
  | .setString text => some ⟨packWord 0x3#4 (BitVec.ofNat 8 text.length) 0#16, text⟩
  | .clear => some ⟨packWord 0x4#4 0#8 0#16, []⟩
  | .allOn => some ⟨packWord 0x5#4 0#8 0#16, []⟩
  | .setSymbol mask => some ⟨packWord 0x6#4 0#8 (0#14 ++ mask), []⟩
  | .unsetSymbol mask => some ⟨packWord 0x7#4 0#8 (0#14 ++ mask), []⟩
  | .reservedOp low => some ⟨1#1 ++ low, []⟩
  | .sysCmd _ | .sysCmdSysEn | .sysCmdLcdOn | .sysCmdBiasCom | .segWrite _ _ | .encodeChar _ | .startTx
  | .sendBits _ _ | .endTx => none

/-- The command laid out as the opcode table numbers its bits: the word in bits 31:0, a SET_STRING's text bytes above
it, first character lowest, and every bit from `nbits` up 0. Fewer than 32 bits hold no command word (log entry 8). -/
def Command.ofTableWord (nbits w : Nat) : Option Command :=
  if nbits < 32 then none
  else
    let bits := w % 2 ^ nbits
    let c : Command := ⟨BitVec.ofNat 32 bits, []⟩
    if c.op = 0x3#4 then
      some { c with text := (List.range c.a.toNat).map fun k => BitVec.ofNat 8 (bits >>> (32 + 8 * k)) }
    else some c

/-- The operation the decoder reads from a row's bits as the opcode table numbers them. -/
def decodeTableWord (nbits w : Nat) : Option Instr :=
  match Command.ofTableWord nbits w with
  | none => none
  | some c =>
    match decode c with
    | .ok i => some i
    | .error _ => none

/-! ## The wire frames -/

/-- The bits of a value in the order they are sent, most significant first (R44, R51). -/
def bitsMsb {w : Nat} (x : BitVec w) : List Bit := (List.range w).map fun i => x.getMsbD i

/-- The value whose bits, most significant first, are the given ones. -/
def ofBitsMsb (bits : List Bit) : Nat := bits.foldl (fun acc b => 2 * acc + b.toNat) 0

/-- The two frame formats, SYS and SEG (R50), with the fields they carry. -/
inductive WireFrame where
  /-- System command: the command byte (R52). -/
  | sys (cmd : Byte)
  /-- Segment write: the 6-bit address and the pattern (R53). -/
  | seg (addr : BitVec 6) (pat : Pattern)
  deriving DecidableEq, Repr

/-- SYS(cmd) as one 12-bit number, f0 its most significant bit (R52). -/
def sysWord (cfg : Config) (cmd : Byte) : BitVec 12 := cfg.pfxCmd ++ cmd ++ 0#1

/-- SEG(addr6, p) as one 25-bit number, f0 its most significant bit: low byte before high byte (R53, R56). -/
def segWord (cfg : Config) (addr : BitVec 6) (pat : Pattern) : BitVec 25 :=
  cfg.pfxWr ++ addr ++ pat.extractLsb' 0 8 ++ pat.extractLsb' 8 8

/-- The bits of a frame in time order (R51 to R53). -/
def encodeFrame (cfg : Config) : WireFrame → List Bit
  | .sys cmd => bitsMsb (sysWord cfg cmd)
  | .seg addr pat => bitsMsb (segWord cfg addr pat)

/-- The frame a bit string is, told apart by length and prefix (R64); `none` for a string that is neither. -/
def decodeFrame (cfg : Config) (bits : List Bit) : Option WireFrame :=
  if bits.length = 12 then
    let x := BitVec.ofNat 12 (ofBitsMsb bits)
    if x.extractLsb' 9 3 = cfg.pfxCmd ∧ x.extractLsb' 0 1 = 0#1 then some (.sys (x.extractLsb' 1 8)) else none
  else if bits.length = 25 then
    let x := BitVec.ofNat 25 (ofBitsMsb bits)
    if x.extractLsb' 22 3 = cfg.pfxWr then
      some (.seg (x.extractLsb' 16 6) (x.extractLsb' 0 8 ++ x.extractLsb' 8 8))
    else none
  else none

end Sys2Proof
end

