-- ==== Sys2Proof/Machine/State.lean ====
section
/-! DEFINITION. The machine's state (spec 10_state.md), its value after reset, and the reasons a step can stop. -/

namespace Sys2Proof.Machine

/-- MODE, the driver's two states (R11). -/
inductive Mode where
  | uninit
  | enabled
  deriving DecidableEq, Repr

/-- DIR of a line (R14). -/
inductive Dir where
  | unconfigured
  | output
  deriving DecidableEq, Repr

/-- TX: is a start…end bracket open (R15). -/
inductive TxState where
  | idle
  | opened
  deriving DecidableEq, Repr

/-- Which of the two fixed waits a hold is (R25, R132). -/
inductive Delay where
  | tBit
  | tSettle
  deriving DecidableEq, Repr

/-- A primitive event of TRACE (R25). -/
inductive Event where
  | pinMode (l : Line)
  | drive (l : Line) (v : Level)
  | hold (t : Delay)
  deriving DecidableEq, Repr

/-- The ghost DISP (R24, R46): the cells written so far, as (cell index, last pattern sent) with the indexes strictly
rising. A cell that is not listed reads `none`. It is the only memory-like state: the chip's cell space is write-only
and the glyph ROM is part of the build (R30). -/
abbrev Memory := List (Nat × Pattern)

/-- The state of the framer: the tuple of R10, the ghost DISP of R24, and two fields of the model's own, the build
(log entry 1) and the host's commands still to be presented (log entry 5). -/
structure State where
  /-- The build's parameters, never written (R5, R17). -/
  cfg : Config
  /-- MODE (R11). -/
  mode : Mode
  /-- SYM: bit 0 colon, bit 1 dot (R12). -/
  sym : BitVec 2
  /-- L, the level last driven on each line (R14). -/
  level : Lines Level
  /-- DIR, whether each line is driven (R14). -/
  dir : Lines Dir
  /-- TX (R15). -/
  tx : TxState
  /-- SHREG, the container being shifted out (R16). -/
  shreg : Byte
  /-- BITCNT, the bits still to send, 0..8 (R16). -/
  bitcnt : Fin 9
  /-- TRACE with the newest event first (R25, log entry 18); `State.trace` gives it oldest first. -/
  traceRev : List Event
  /-- DISP (R24). -/
  disp : Memory
  /-- The host's commands not yet presented, next one first (R27, R60). -/
  port : List Command
  deriving DecidableEq, Repr

/-- Power-on (R28, R140). -/
def State.reset : State where
  cfg := Config.device
  mode := .uninit
  sym := 0
  level := ⟨Config.powerOnLevel .cs, Config.powerOnLevel .wr, Config.powerOnLevel .data⟩
  dir := Lines.all .unconfigured
  tx := .idle
  shreg := Config.powerOnShreg
  bitcnt := Config.powerOnBitcnt
  traceRev := []
  disp := []
  port := []

/-- Faults: an internal operation used where the spec gives it no meaning. The hardware itself raises nothing (R120),
and no host operation reaches one of these. -/
inductive Fault where
  /-- Raised by SEND_BITS and END_TX while TX is IDLE: "Must be called only between start/end bracketing" (R81, R148,
  U7). Safe: the model stops where the spec gives no meaning. -/
  | transportOutsideBracket
  /-- Raised by SEND_BITS with a bit count of 0 or above 8 (R81, D23, U8). Safe, as above. -/
  | bitCountOutOfRange
  deriving DecidableEq, Repr

/-- Refusals: the model gives a host operation no meaning (R126). No state changes and no event is appended; the run
ends. All are safe: the model says nothing where the spec fixes nothing. -/
inductive Refusal where
  /-- An operation whose arm has no meaning yet. Raised by `exec` alone; no arm does at present. Safe. -/
  | notModelled (mnemonic : String)
  /-- A malformed command word or a reserved operation code (R62, U11). Raised by `step` and RESERVED_OP. Safe. -/
  | badCommandWord
  /-- A host operation other than ENABLE while MODE is UNINIT (R124, U1). Safe. -/
  | notEnabled
  /-- A position outside -1..N-1, in SET_SEGMENTS or SET_CHARACTER (R125, U2) or in SEG_WRITE itself (log entry 13).
  Safe. -/
  | positionOutOfRange
  deriving DecidableEq, Repr

end Sys2Proof.Machine
end

