-- ==== Sys2Proof/Machine/Operands.lean ====
section
/-! DEFINITION. Operand forms: positions, the address container, the pattern's bytes, characters and the glyph ROM
(spec 20_memory.md, 30_encoding.md section 2, 40_segment_encoder.md). -/

namespace Sys2Proof.Machine

/-! ## Positions and cells -/

/-- The position an i8 operand names: sign-extended to an integer (R67 (7)). -/
def positionOf (pos : BitVec 8) : Int := pos.toInt

/-- A position is in range when it lies in -1..N-1 (R41). -/
def inRange (cfg : Config) (pos : Int) : Bool := decide (-1 ≤ pos) && decide (pos ≤ (cfg.n : Int) - 1)

/-- The cell index of a position, N - 1 - position (R42); used for positions in range, where it lies in 0..N. -/
def cellOf (cfg : Config) (pos : Int) : Nat := ((cfg.n : Int) - 1 - pos).toNat

/-- All positions in the order CLEAR and ALL_ON visit them: -1, 0, ..., N-1 (R105, R106, D9). -/
def allPositions (cfg : Config) : List Int := (List.range (cfg.n + 1)).map fun (k : Nat) => (k : Int) - 1

/-- The 8-bit address container ((N - 1 - pos) << 4) mod 256 (R55). -/
def addressContainer (cfg : Config) (pos : Int) : Byte := BitVec.ofNat 8 (cellOf cfg pos) <<< 4

/-- The six address bits on the wire, the top of the container (R43, R55). -/
def addressField (cfg : Config) (pos : Int) : BitVec 6 := (addressContainer cfg pos).extractLsb' 2 6

/-! ## Fields of a frame -/

/-- A 3-bit prefix as SEND_BITS takes it, aligned to the top of the container (R58, D2). -/
def prefixContainer (p : BitVec 3) : Byte := p.setWidth 8 <<< 5

/-- The low byte of a pattern, sent first (R56). -/
def lowByte (p : Pattern) : Byte := p.extractLsb' 0 8

/-- The high byte of a pattern, sent second (R56). -/
def highByte (p : Pattern) : Byte := p.extractLsb' 8 8

/-! ## Characters and glyphs -/

/-- 'a'..'z' folded to 'A'..'Z'; every other code unchanged (R59). The codes are ASCII (log entry 22). -/
def foldCase (ch : Byte) : Byte := if 0x61 ≤ ch.toNat ∧ ch.toNat ≤ 0x7A then ch - 0x20#8 else ch

/-- Entry i of the effective table GLYPH_SYM: the base table, but for the slanted '2' and '3' (R33). -/
def glyphSym (cfg : Config) (i : Fin 26) : Pattern :=
  if cfg.slanted ∧ i.val = 18 then cfg.glyph2Slant
  else if cfg.slanted ∧ i.val = 19 then cfg.glyph3Slant
  else cfg.glyphSymBase[i]

/-- Entry i of GLYPH_LET (R32, R35). -/
def glyphLet (cfg : Config) (i : Fin 27) : Pattern := cfg.glyphLet[i]

/-- ENCODE: the glyph of a character, or none (R70). Both table reads follow a range check that puts the index inside
the table (R35). -/
def glyphOf (cfg : Config) (ch : Byte) : Option Pattern :=
  let f := (foldCase ch).toNat
  if 0x20 ≤ f ∧ f ≤ 0x39 then some (glyphSym cfg (Fin.ofNat 26 (f - 0x20)))
  else if 0x40 ≤ f ∧ f ≤ 0x5A then some (glyphLet cfg (Fin.ofNat 27 (f - 0x40)))
  else none

end Sys2Proof.Machine
end

