-- ==== Sys2Proof/Machine/Flags.lean ====
section
/-! DEFINITION. The two indicator flags of SYM and the overlay computed from them (spec 10_state.md R12, R13). They are
the only flags; no operation sets one as a side effect (R19). -/

namespace Sys2Proof.Machine

/-- OVL(SYM): the pattern bits the flags add (R13). -/
def overlay (cfg : Config) (sym : BitVec 2) : Pattern :=
  (if sym.getLsbD 0 then cfg.segColon else 0) ||| (if sym.getLsbD 1 then cfg.segDot else 0)

/-- The pattern SET_SEGMENTS transmits: the overlay is OR-ed in at INDICATOR_POS and nowhere else (R101). -/
def transmitted (cfg : Config) (sym : BitVec 2) (pos : Int) (pat : Pattern) : Pattern :=
  if pos = cfg.indicatorPos then pat ||| overlay cfg sym else pat

/-- SYM with the mask's flags set (R108). -/
def symWith (sym mask : BitVec 2) : BitVec 2 := sym ||| mask

/-- SYM with the mask's flags cleared (R109). -/
def symWithout (sym mask : BitVec 2) : BitVec 2 := sym &&& ~~~mask

end Sys2Proof.Machine
end

