-- ==== Sys2Proof/Machine/Ops.lean ====
section
/-! DEFINITION. The named operations every meaning is built from: the command port, the cell space, the pin primitives,
the transport, the two transactions, and the checks of a host operation. The framer raises no exception and returns
from none (R120, R123), so there is no exception entry here; what stands in its place is the refusal (R126). -/

namespace Sys2Proof.Machine

/-! ## The command port -/

/-- Take the next command the host presents, if there is one (R27, R60). -/
def fetch (s : State) : Option (Command × State) :=
  match s.port with
  | [] => none
  | c :: rest => some (c, { s with port := rest })

/-! ## The cell space (the ghost DISP) -/

/-- The canonical form: cell indexes strictly rising. -/
abbrev Memory.wf (m : Memory) : Prop := m.Pairwise fun x y => x.1 < y.1

/-- The pattern last sent to a cell, `none` before the first (R24). -/
def Memory.read : Memory → Nat → Option Pattern
  | [], _ => none
  | (k, q) :: m, c => if c = k then some q else Memory.read m c

/-- Record a pattern sent to a cell (R46). -/
def Memory.write : Memory → Nat → Pattern → Memory
  | [], c, p => [(c, p)]
  | (k, q) :: m, c, p =>
    if c < k then (c, p) :: (k, q) :: m
    else if c = k then (c, p) :: m
    else (k, q) :: Memory.write m c p

/-! ## Pin primitives (00_scope.md section 6) -/

/-- TRACE, oldest event first (R25). -/
def State.trace (s : State) : List Event := s.traceRev.reverse

/-- PinMode(l). -/
def State.pinMode (s : State) (l : Line) : State :=
  { s with dir := s.dir.set l .output, traceRev := .pinMode l :: s.traceRev }

/-- Drive(l, v). -/
def State.drive (s : State) (l : Line) (v : Level) : State :=
  { s with level := s.level.set l v, traceRev := .drive l v :: s.traceRev }

/-- Hold(t). -/
def State.hold (s : State) (t : Delay) : State := { s with traceRev := .hold t :: s.traceRev }

/-! ## Transport (41_bit_serial_transport.md) -/

/-- START_TX (R80). -/
def startTx (s : State) : State :=
  let s := ((s.drive .cs Level.low).drive .wr Level.high).drive .data Level.high
  { s.hold .tBit with tx := .opened }

/-- One pass of SEND_BITS's loop: clock low, data, clock high, each followed by a hold; then shift and count (R81). -/
def sendBit (s : State) : State :=
  let s := (s.drive .wr Level.low).hold .tBit
  let s := (s.drive .data s.shreg.msb).hold .tBit
  let s := (s.drive .wr Level.high).hold .tBit
  { s with shreg := s.shreg <<< 1, bitcnt := s.bitcnt - 1 }

/-- The loop of SEND_BITS with `k` bits still to send. -/
def sendLoop : Nat → State → State
  | 0, s => s
  | k + 1, s => sendLoop k (sendBit s)

/-- SEND_BITS(value, n): the top n bits of the container, most significant first (R81). -/
def sendBits (value : Byte) (n : Nat) (s : State) : State :=
  sendLoop n { s with shreg := value, bitcnt := Fin.ofNat 9 n }

/-- END_TX (R82), with its redundant second assert of chip-select (D4). It does not write the ghost DISP, whichever bits the
bracket it closes has sent: SEG_WRITE alone does (DESIGN CHOICE, log entry 26). -/
def endTx (s : State) : State :=
  let s := (((s.hold .tBit).drive .cs Level.high).drive .data Level.high).drive .cs Level.high
  { s with tx := .idle }

/-- The universal frame start, code bits, payload bits, end (R86, R95): each field a container and its bit count. -/
def transaction (fields : List (Byte × Nat)) (s : State) : State :=
  endTx (fields.foldl (fun t f => sendBits f.1 f.2 t) (startTx s))

/-! ## Transactions (42_command_protocol.md) -/

/-- The fields of a SYS frame (R90): prefix, command byte, pad bit. -/
def sysFields (cfg : Config) (cmd : Byte) : List (Byte × Nat) :=
  [(prefixContainer cfg.pfxCmd, 3), (cmd, 8), (0x00#8, 1)]

/-- The fields of a SEG frame (R92): prefix, address, low byte, high byte. -/
def segFields (cfg : Config) (pos : Int) (p : Pattern) : List (Byte × Nat) :=
  [(prefixContainer cfg.pfxWr, 3), (addressContainer cfg pos, 6), (lowByte p, 8), (highByte p, 8)]

/-- SYS_CMD(cmd) (R90). -/
def sysCmd (cmd : Byte) (s : State) : State := transaction (sysFields s.cfg cmd) s

/-- SEG_WRITE(pos, p) (R92), with the ghost update of R46 once the frame is complete; this is the only operation that
writes DISP (log entry 26). -/
def segWrite (pos : Int) (p : Pattern) (s : State) : State :=
  let t := transaction (segFields s.cfg pos p) s
  { t with disp := t.disp.write (cellOf s.cfg pos) p }

/-! ## Driver operations (43_display_driver.md), as the composite operations call them -/

/-- SET_SEGMENTS on a position in range (R101). -/
def setSegments (pos : Int) (pat : Pattern) (s : State) : State :=
  segWrite pos (transmitted s.cfg s.sym pos pat) s

/-- SET_CHARACTER on a position in range: nothing at all where there is no glyph (R102, R128). -/
def setCharacter (pos : Int) (ch : Byte) (s : State) : State :=
  match glyphOf s.cfg ch with
  | some p => setSegments pos p s
  | none => s

/-- Characters to successive positions from `pos` on. -/
def setCharactersFrom (pos : Int) : List Byte → State → State
  | [], s => s
  | ch :: rest, s => setCharactersFrom (pos + 1) rest (setCharacter pos ch s)

/-- SET_STRING: the first min(LEN, N) characters to positions 0, 1, ... (R103). -/
def setString (text : List Byte) (s : State) : State := setCharactersFrom 0 (text.take s.cfg.n) s

/-- The same pattern to every position, -1 first (R105, R106). -/
def fill (pat : Pattern) (s : State) : State :=
  (allPositions s.cfg).foldl (fun t pos => setSegments pos pat t) s

/-- ENABLE's pin set-up: all three lines configured, then all three driven idle-high, then the settle delay (R100). -/
def pinSetup (s : State) : State :=
  let s := ((s.pinMode .cs).pinMode .wr).pinMode .data
  let s := ((s.drive .cs Level.high).drive .wr Level.high).drive .data Level.high
  s.hold .tSettle

/-- ENABLE (R100): set-up, the three system commands in their fixed order, a full clear, MODE <- ENABLED. -/
def enable (s : State) : State :=
  let s := pinSetup s
  let s := sysCmd s.cfg.cmdSysEn s
  let s := sysCmd s.cfg.cmdLcdOn s
  let s := sysCmd s.cfg.cmdBiasCom s
  { fill 0x0000#16 s with mode := .enabled }

/-! ## The checks of a host operation (60_exceptions.md R122) -/

/-- What the machine's operations answer. -/
abbrev Result := Host.Outcome State Fault Refusal

/-- Check (2): MODE = ENABLED, else NotEnabled (R124). -/
def whenEnabled (s : State) (r : Result) : Result :=
  if s.mode = .enabled then r else .refused .notEnabled

/-- Check (3): the position is in range, else PositionOutOfRange (R125). -/
def whenInRange (s : State) (pos : Int) (r : Result) : Result :=
  if inRange s.cfg pos then r else .refused .positionOutOfRange

/-- The precondition of SEND_BITS and END_TX: a bracket is open (R81, R82). -/
def whenOpen (s : State) (r : Result) : Result :=
  if s.tx = .opened then r else .fault .transportOutsideBracket

end Sys2Proof.Machine
end

