-- ==== Sys2Proof/Machine/Driver.lean ====
section
/-! DEFINITION. DisplayDriver (spec 43_display_driver.md): the eight host operations, and the reserved operation codes. -/

namespace Sys2Proof.Machine

/-- ENABLE (R100): accepted in either mode (D30). -/
def execEnable (s : State) : Result := .next (enable s)

/-- SET_SEGMENTS pos, pat (R101): exactly one SEG frame. -/
def execSetSegments (pos : BitVec 8) (pat : Pattern) (s : State) : Result :=
  whenEnabled s (whenInRange s (positionOf pos) (.next (setSegments (positionOf pos) pat s)))

/-- SET_CHARACTER pos, ch (R102); the position is checked before the glyph is looked up (D13). -/
def execSetCharacter (pos : BitVec 8) (ch : Byte) (s : State) : Result :=
  whenEnabled s (whenInRange s (positionOf pos) (.next (setCharacter (positionOf pos) ch s)))

/-- SET_STRING text (R103). -/
def execSetString (text : List Byte) (s : State) : Result := whenEnabled s (.next (setString text s))

/-- CLEAR (R106): through the overlay (D8). -/
def execClear (s : State) : Result := whenEnabled s (.next (fill 0x0000#16 s))

/-- ALL_ON (R105). -/
def execAllOn (s : State) : Result := whenEnabled s (.next (fill 0xFFFF#16 s))

/-- SET_SYMBOL mask (R108). -/
def execSetSymbol (mask : BitVec 2) (s : State) : Result :=
  whenEnabled s (.next { s with sym := symWith s.sym mask })

/-- UNSET_SYMBOL mask (R109). -/
def execUnsetSymbol (mask : BitVec 2) (s : State) : Result :=
  whenEnabled s (.next { s with sym := symWithout s.sym mask })

/-- A reserved operation code (R62): BadCommandWord, before any other check (R122). -/
def execReservedOp (_low : BitVec 31) (_s : State) : Result := .refused .badCommandWord

end Sys2Proof.Machine
end

