-- ==== Sys2Proof/Machine/Encoder.lean ====
section
/-! DEFINITION. SegmentEncoder (spec 40_segment_encoder.md): ENCODE. -/

namespace Sys2Proof.Machine

/-- ENCODE(ch) as an operation (R70): its value `glyphOf cfg ch` goes to its caller, and "State written: none". -/
def encodeOp (ch : Byte) (s : State) : Option Pattern × State := (glyphOf s.cfg ch, s)

/-- ENCODE ch (R70): the state it leaves. The value it returns is `(encodeOp ch s).1` (log entry 19). -/
def execEncodeChar (ch : Byte) (s : State) : Result := .next (encodeOp ch s).2

end Sys2Proof.Machine
end

