-- ==== Sys2Proof/Machine/Protocol.lean ====
section
/-! DEFINITION. CommandProtocol (spec 42_command_protocol.md): SYS_CMD, its three uses, and SEG_WRITE. -/

namespace Sys2Proof.Machine

/-- SYS_CMD cmd (R90). It cannot fail (R94). -/
def execSysCmd (cmd : Byte) (s : State) : Result := .next (sysCmd cmd s)

/-- SYS_CMD with CMD_SYS_EN (R68). -/
def execSysCmdSysEn (s : State) : Result := .next (sysCmd s.cfg.cmdSysEn s)

/-- SYS_CMD with CMD_LCD_ON (R68). -/
def execSysCmdLcdOn (s : State) : Result := .next (sysCmd s.cfg.cmdLcdOn s)

/-- SYS_CMD with CMD_BIAS_COM (R68). -/
def execSysCmdBiasCom (s : State) : Result := .next (sysCmd s.cfg.cmdBiasCom s)

/-- SEG_WRITE pos, p (R92). The host operations refuse a position out of range before this is reached (R125); run as an
instruction of its own, SEG_WRITE refuses it itself (log entry 13). -/
def execSegWrite (pos : Int) (p : Pattern) (s : State) : Result := whenInRange s pos (.next (segWrite pos p s))

end Sys2Proof.Machine
end

