-- ==== Sys2Proof/Machine/Transport.lean ====
section
/-! DEFINITION. BitSerialTransport (spec 41_bit_serial_transport.md): START_TX, SEND_BITS, END_TX. -/

namespace Sys2Proof.Machine

/-- START_TX (R80). With a bracket already open it drives the same levels again (R80, log entry 12). -/
def execStartTx (s : State) : Result := .next (startTx s)

/-- SEND_BITS value, n (R81): between start and end only, 1 to 8 bits. -/
def execSendBits (value : Byte) (n : Nat) (s : State) : Result :=
  whenOpen s (if 1 ≤ n ∧ n ≤ 8 then .next (sendBits value n s) else .fault .bitCountOutOfRange)

/-- END_TX (R82): between start and end only. A SEG frame sent by START_TX, SEND_BITS and END_TX as separate instructions
leaves DISP as it is (DESIGN CHOICE, log entry 26). -/
def execEndTx (s : State) : Result := whenOpen s (.next (endTx s))

end Sys2Proof.Machine
end

