-- ==== Sys2Proof/Machine/Dispatch.lean ====
section
/-! DEFINITION. One arm per operation. -/

namespace Sys2Proof.Machine

def exec (i : Instr) (s : State) : Host.Outcome State Fault Refusal :=
  match i with
  -- DisplayDriver: the host operations and the reserved operation codes
  | .enable => Sys2Proof.Machine.execEnable s
  | .setSegments pos pat => Sys2Proof.Machine.execSetSegments pos pat s
  | .setCharacter pos ch => Sys2Proof.Machine.execSetCharacter pos ch s
  | .setString text => Sys2Proof.Machine.execSetString text s
  | .clear => Sys2Proof.Machine.execClear s
  | .allOn => Sys2Proof.Machine.execAllOn s
  | .setSymbol mask => Sys2Proof.Machine.execSetSymbol mask s
  | .unsetSymbol mask => Sys2Proof.Machine.execUnsetSymbol mask s
  | .reservedOp low => Sys2Proof.Machine.execReservedOp low s
  -- CommandProtocol
  | .sysCmd cmd => Sys2Proof.Machine.execSysCmd cmd s
  | .sysCmdSysEn => Sys2Proof.Machine.execSysCmdSysEn s
  | .sysCmdLcdOn => Sys2Proof.Machine.execSysCmdLcdOn s
  | .sysCmdBiasCom => Sys2Proof.Machine.execSysCmdBiasCom s
  | .segWrite pos p => Sys2Proof.Machine.execSegWrite pos p s
  -- SegmentEncoder
  | .encodeChar ch => Sys2Proof.Machine.execEncodeChar ch s
  -- BitSerialTransport
  | .startTx => Sys2Proof.Machine.execStartTx s
  | .sendBits value n => Sys2Proof.Machine.execSendBits value n s
  | .endTx => Sys2Proof.Machine.execEndTx s

end Sys2Proof.Machine
end

