-- ==== Sys2Proof/Machine/Step.lean ====
section
/-! DEFINITION. One step: the host presents its next command and the framer performs the whole operation (spec R22,
R27). -/

namespace Sys2Proof.Machine

/-- One whole host operation, from idle to idle. With no command presented the framer stays as it is (R121, R140). The
word's form is checked first (R122), then the operation makes its own checks. -/
def step (s : State) : Host.Outcome State Fault Refusal :=
  match fetch s with
  | none => .next s
  | some (c, t) =>
    match decode c with
    | .ok i => exec i t
    | .error _ => .refused .badCommandWord

/-- The state with the command a table word holds presented next, before any command already there (log entry 7). Fewer
than 32 bits hold no command, and nothing is presented (log entry 8). -/
def State.withFetchWord (s : State) (nbits w : Nat) : State :=
  match Command.ofTableWord nbits w with
  | none => s
  | some c => { s with port := c :: s.port }

end Sys2Proof.Machine
end

