-- ==== Sys2Proof/Machine/Observe.lean ====
section
/-! DEFINITION. What is observed of a run: the waveform (spec 10_state.md R26), the frames recovered from it
(30_encoding.md R63), the ghost DISP read off the frames (20_memory.md R46), and the held time (70_reset_and_hazards.md
R156, R157). No operation of the machine reads any of this. -/

namespace Sys2Proof.Machine

/-! ## The waveform -/

/-- What a trace says of the lines: which are outputs, and the level last driven, `none` while unspecified. -/
structure Pins where
  dir : Lines Dir
  level : Lines (Option Level)
  deriving DecidableEq, Repr

/-- Before any event: no line configured, no level known (R28). -/
def Pins.powerOn : Pins := ⟨Lines.all .unconfigured, Lines.all none⟩

/-- The lines after an event. -/
def Pins.event (p : Pins) : Event → Pins
  | .pinMode l => { p with dir := p.dir.set l .output }
  | .drive l v => { p with level := p.level.set l (some v) }
  | .hold _ => p

/-- The lines after a list of events. -/
def Pins.after (p : Pins) (es : List Event) : Pins := es.foldl Pins.event p

/-- The events that change no wire, which the waveform deletes (R26): a hold, a drive of an output to the level it is
known to have, a second configuration. -/
def Pins.unchangedBy (p : Pins) : Event → Bool
  | .hold _ => true
  | .drive l v => decide (p.dir.get l = .output) && decide (p.level.get l = some v)
  | .pinMode l => decide (p.dir.get l = .output)

/-- The waveform of a list of events that finds the lines at `p` (R26). -/
def waveFrom (p : Pins) : List Event → List Event
  | [] => []
  | e :: es => if p.unchangedBy e then waveFrom (p.event e) es else e :: waveFrom (p.event e) es

/-- The waveform of a trace, from power-on (R26). -/
def waveform (trace : List Event) : List Event := waveFrom Pins.powerOn trace

/-! ## Frame recovery -/

/-- The receiver of R63: the levels seen so far, the bits of the open frame, and the frames closed, oldest first. -/
structure Receiver where
  level : Lines (Option Level)
  current : Option (List Bit)
  closed : List (List Bit)
  deriving DecidableEq, Repr

/-- Before any event no level is known and no frame is open. -/
def Receiver.start : Receiver := ⟨Lines.all none, none, []⟩

/-- CS 1 → 0 opens a frame and CS 0 → 1 closes it. -/
def Receiver.chipSelect (r : Receiver) (v : Level) : Receiver :=
  if r.level.cs = some Level.high ∧ v = Level.low then { r with current := some [] }
  else if r.level.cs = some Level.low ∧ v = Level.high then
    { r with current := none, closed := r.closed ++ r.current.toList }
  else r

/-- WR 0 → 1 inside a frame appends the current DATA level; an unknown level appends nothing (log entry 23). -/
def Receiver.writeClock (r : Receiver) (v : Level) : Receiver :=
  if r.level.wr = some Level.low ∧ v = Level.high then
    { r with current := r.current.map fun bits => bits ++ r.level.data.toList }
  else r

/-- One entry of the waveform seen by the receiver (R63). -/
def Receiver.event (r : Receiver) : Event → Receiver
  | .drive .cs v => { r.chipSelect v with level := r.level.set .cs (some v) }
  | .drive .wr v => { r.writeClock v with level := r.level.set .wr (some v) }
  | .drive .data v => { r with level := r.level.set .data (some v) }
  | .pinMode _ => r
  | .hold _ => r

/-- The receiver after a list of events. -/
def Receiver.after (r : Receiver) (es : List Event) : Receiver := es.foldl Receiver.event r

/-- FRAMES(waveform) (R63). -/
def framesOf (wave : List Event) : List (List Bit) := (Receiver.start.after wave).closed

/-- The waveform of the run so far (R26, R146). -/
def State.waveform (s : State) : List Event := Machine.waveform s.trace

/-- The frames sent so far, oldest first (R63, R146). -/
def State.frames (s : State) : List (List Bit) := framesOf s.waveform

/-- The bits of the SYS frame of a command byte (R52). -/
def sysFrame (cfg : Config) (cmd : Byte) : List Bit := encodeFrame cfg (.sys cmd)

/-- The bits of the SEG frame that carries a pattern to a position (R53, R92). -/
def segFrame (cfg : Config) (pos : Int) (p : Pattern) : List Bit := encodeFrame cfg (.seg (addressField cfg pos) p)

/-- The waveform of the bit phases of a frame that finds DATA at level `d`: per bit WR↓, a DATA change if the bit differs
from the level DATA has, WR↑ (R84). -/
def bitsWaveform (d : Level) : List Bit → List Event
  | [] => []
  | b :: bs =>
    [Event.drive .wr Level.low] ++ (if b = d then [] else [Event.drive .data b]) ++ [Event.drive .wr Level.high] ++
      bitsWaveform b bs

/-- The waveform of a whole frame sent from idle: CS↓, the bits, CS↑, and DATA↑ if the last bit is 0 (R84). -/
def frameWaveform (bits : List Bit) : List Event :=
  [Event.drive .cs Level.low] ++ bitsWaveform Level.high bits ++ [Event.drive .cs Level.high] ++
    (if bits.getLast? = some false then [Event.drive .data Level.high] else [])

/-! ## The events of a frame, as TRACE holds them -/

/-- The events of START_TX (R80). -/
def startEvents : List Event :=
  [.drive .cs Level.low, .drive .wr Level.high, .drive .data Level.high, .hold .tBit]

/-- The events of one bit (R81). -/
def bitEvents (b : Bit) : List Event :=
  [.drive .wr Level.low, .hold .tBit, .drive .data b, .hold .tBit, .drive .wr Level.high, .hold .tBit]

/-- The events of END_TX (R82). -/
def endEvents : List Event :=
  [.hold .tBit, .drive .cs Level.high, .drive .data Level.high, .drive .cs Level.high]

/-- The bits a list of fields puts on the wire. -/
def fieldBits (fields : List (Byte × Nat)) : List Bit := fields.flatMap fun f => (bitsMsb f.1).take f.2

/-- The events of a whole frame with the given bits. -/
def frameEvents (bits : List Bit) : List Event := startEvents ++ bits.flatMap bitEvents ++ endEvents

/-! ## The ghost DISP, read off the frames -/

/-- The ghost update of one completed frame (R46): a segment write to an address 4c with c at most N records its pattern
at cell c; anything else leaves DISP as it is. -/
def receiveFrame (cfg : Config) (m : Memory) (bits : List Bit) : Memory :=
  match decodeFrame cfg bits with
  | some (.seg addr p) =>
    if addr.extractLsb' 0 2 = 0#2 ∧ (addr.extractLsb' 2 4).toNat ≤ cfg.n then m.write (addr.extractLsb' 2 4).toNat p
    else m
  | some (.sys _) => m
  | none => m

/-- DISP as a list of frames leaves it. -/
def dispOfFrames (cfg : Config) (frames : List (List Bit)) : Memory := frames.foldl (receiveFrame cfg) []

/-! ## What is observed at the end of a run -/

/-- The observation of R146: the waveform, the frames, DISP, MODE and SYM. -/
structure Observation where
  waveform : List Event
  frames : List (List Bit)
  disp : Memory
  mode : Mode
  sym : BitVec 2
  deriving DecidableEq, Repr

/-- What is observed of a state between operations (R146). -/
def State.observe (s : State) : Observation := ⟨s.waveform, s.frames, s.disp, s.mode, s.sym⟩

/-! ## Held time -/

/-- The duration a hold stands for (R157). -/
def Delay.duration (cfg : Config) : Delay → Nat
  | .tBit => cfg.tBit
  | .tSettle => cfg.tSettle

/-- The time a trace is held, in the unit of T_BIT and T_SETTLE: a lower bound on its real duration (R157). -/
def heldTime (cfg : Config) (trace : List Event) : Nat :=
  (trace.map fun e => match e with
    | .hold t => t.duration cfg
    | .drive _ _ => 0
    | .pinMode _ => 0).sum

end Sys2Proof.Machine
end

