-- ==== Sys2Proof/Safety.lean ====
section
/-! DEFINITION. What a good state is between host operations: the idle invariant (spec 10_state.md R29, R144), the
agreement of the pins with the trace, and the agreement of DISP with the frames. -/

namespace Sys2Proof.Machine

/-- Idle: TX = IDLE and all three lines configured and high (R29). -/
structure State.Idle (s : State) : Prop where
  tx : s.tx = .idle
  dir : s.dir = Lines.all .output
  level : s.level = Lines.all Level.high

/-- The trace says the lines are idle: all configured, all known to be high, and no frame open at the receiver. -/
structure State.TraceIdle (s : State) : Prop where
  pins : Pins.powerOn.after s.trace = ⟨Lines.all .output, Lines.all (some Level.high)⟩
  noFrame : (Receiver.start.after s.waveform).current = none

/-- The invariant between host operations. While MODE = UNINIT nothing has happened yet (R124, R28); once ENABLED, the
lines are idle and every cell has been written (R29, R144). -/
structure State.Inv (s : State) : Prop where
  build : s.cfg.Admissible
  cells : s.disp.wf
  cellsInRange : ∀ e ∈ s.disp, e.1 ≤ s.cfg.n
  txIdle : s.tx = .idle
  uninit : s.mode = .uninit → s.sym = 0 ∧ s.dir = Lines.all .unconfigured ∧ s.trace = [] ∧ s.disp = []
  enabled : s.mode = .enabled → s.Idle ∧ s.TraceIdle ∧ ∀ c ≤ s.cfg.n, (s.disp.read c).isSome = true

/-- DISP is what the frames on the wire say it is (R46). -/
def State.DispMatchesFrames (s : State) : Prop := s.disp = dispOfFrames s.cfg s.frames

/-- A frame the framer may send: SYS with one of the three command bytes, or SEG to the address 4c of a cell c in 0..N
(R50, R54, R62, R68). -/
def LegalFrame (cfg : Config) (bits : List Bit) : Prop :=
  (∃ cmd, bits = sysFrame cfg cmd ∧ (cmd = cfg.cmdSysEn ∨ cmd = cfg.cmdLcdOn ∨ cmd = cfg.cmdBiasCom)) ∨
    ∃ pos p, inRange cfg pos = true ∧ bits = segFrame cfg pos p

/-- DATA is stable across every rise of the write-clock inside a frame: in the waveform, DATA changes while a frame is
open only while WR is low (R83 (d)). `r` is what the receiver has seen before the entries. -/
def DataStable (r : Receiver) : List Event → Prop
  | [] => True
  | e :: es =>
    (∀ v, e = .drive .data v → r.current.isSome = true → r.level.wr = some Level.low) ∧ DataStable (r.event e) es

/-- What an operation leaves alone when all it does to the outside is to send frames: the build, MODE, SYM, DIR and the
host's later commands; TRACE is only added to. -/
structure OnlySends (s t : State) : Prop where
  cfg : t.cfg = s.cfg
  mode : t.mode = s.mode
  sym : t.sym = s.sym
  dir : t.dir = s.dir
  port : t.port = s.port
  trace : s.trace <+: t.trace

/-- TX is IDLE and all three latches are high: how every complete frame leaves the lines (R83 (c)). -/
structure LinesHigh (t : State) : Prop where
  tx : t.tx = .idle
  level : t.level = Lines.all Level.high

/-- The position operand the machine checks, for the host operations that have one (R122). -/
def hostPosition : Instr → Option Int
  | .setSegments pos _ => some (positionOf pos)
  | .setCharacter pos _ => some (positionOf pos)
  | .enable | .setString _ | .clear | .allOn | .setSymbol _ | .unsetSymbol _ | .reservedOp _ | .sysCmd _ | .sysCmdSysEn
  | .sysCmdLcdOn | .sysCmdBiasCom | .segWrite _ _ | .encodeChar _ | .startTx | .sendBits _ _ | .endTx => none

/-- Is this a reserved operation code (R62)? -/
def isReserved : Instr → Bool
  | .reservedOp _ => true
  | .enable | .setSegments _ _ | .setCharacter _ _ | .setString _ | .clear | .allOn | .setSymbol _ | .unsetSymbol _
  | .sysCmd _ | .sysCmdSysEn | .sysCmdLcdOn | .sysCmdBiasCom | .segWrite _ _ | .encodeChar _ | .startTx | .sendBits _ _
  | .endTx => false

/-- A host operation a build accepts once enabled: it has a command word, its code is not reserved, it is well formed,
and its position, if it has one, is in range. -/
structure Acceptable (cfg : Config) (i : Instr) : Prop where
  host : i.hasCommandWord = true
  defined : isReserved i = false
  wellFormed : i.wellFormed = true
  inRange : ∀ pos, hostPosition i = some pos → inRange cfg pos = true

/-- The operation writes INDICATOR_POS when it completes, and `q` is the pattern it requests there, before the overlay: the
writers R150 names, and ENABLE, which ends in a full clear (R100). -/
def WritesIndicator (cfg : Config) : Instr → Pattern → Prop
  | .setSegments pos pat, q => positionOf pos = cfg.indicatorPos ∧ q = pat
  | .setCharacter pos ch, q => positionOf pos = cfg.indicatorPos ∧ glyphOf cfg ch = some q
  | .setString text, q =>
    ∃ (i : Nat) (hi : i < text.length), i < cfg.n ∧ (i : Int) = cfg.indicatorPos ∧ glyphOf cfg text[i] = some q
  | .enable, q => q = 0x0000#16
  | .clear, q => q = 0x0000#16
  | .allOn, q => q = 0xFFFF#16
  | .setSymbol _, _ | .unsetSymbol _, _ | .reservedOp _, _ | .sysCmd _, _ | .sysCmdSysEn, _ | .sysCmdLcdOn, _
  | .sysCmdBiasCom, _ | .segWrite _ _, _ | .encodeChar _, _ | .startTx, _ | .sendBits _ _, _ | .endTx, _ => False

/-- The frames SET_STRING sends for a text: one for each of the first N characters that has a glyph, in order, at the
character's own index, with the overlay (R103, R104). -/
def stringFrames (cfg : Config) (sym : BitVec 2) (text : List Byte) : List (List Bit) :=
  (text.take cfg.n).zipIdx.filterMap fun x =>
    (glyphOf cfg x.1).map fun g => segFrame cfg x.2 (transmitted cfg sym x.2 g)

/-- The frames CLEAR and ALL_ON send: the pattern, with the overlay, to every position from -1 up (R105, R106). -/
def fillFrames (cfg : Config) (sym : BitVec 2) (pat : Pattern) : List (List Bit) :=
  (allPositions cfg).map fun pos => segFrame cfg pos (transmitted cfg sym pos pat)

/-- The three SYS frames of ENABLE, in their fixed order (R68, R100). -/
def enableSysFrames (cfg : Config) : List (List Bit) :=
  [sysFrame cfg cfg.cmdSysEn, sysFrame cfg cfg.cmdLcdOn, sysFrame cfg cfg.cmdBiasCom]

/-- A run of `k` steps that neither faults nor is refused, and ends in `t`. -/
def RunsSafely (k : Nat) (s t : State) : Prop := Host.Core.run ⟨State, Fault, Refusal, step, State.reset⟩ k s = .next t

end Sys2Proof.Machine
end

