-- ==== Sys2Proof/Certificates/Slice0/Obligations.lean ====
section
/-! DEFINITION. The statements for the provers. -/

open Sys2Proof Sys2Proof.Machine

/-! ## The step, the command word, the wire frames -/

/-- A step runs the operation the presented command names, with that command taken off the port (R22, R27, R60). The
port is the model's own, log entry 5. -/
def Obligations.StepRunsThePresentedOperation : Prop :=
  ∀ (s : State) (c : Command) (rest : List Command) (i : Instr), s.port = c :: rest → decode c = .ok i →
    step s = exec i { s with port := rest }

/-- With no command presented the framer stays exactly as it is (R121, R140). The model's choice that an empty port is
an idle step is log entry 5. -/
def Obligations.StepWithoutCommandIdles : Prop := ∀ s : State, s.port = [] → step s = .next s

/-- Every malformed word of R62's list is refused with BadCommandWord, in either mode: the word's form is checked first
(R122). The word is the spec's decision D14. -/
def Obligations.StepRefusesMalformedWords : Prop :=
  ∀ (s : State) (c : Command) (rest : List Command), s.port = c :: rest →
    (8 ≤ c.op.toNat ∨ c.rsv ≠ 0#4 ∨
      ((c.op = 0x0#4 ∨ c.op = 0x4#4 ∨ c.op = 0x5#4) ∧ (c.a ≠ 0#8 ∨ c.b ≠ 0#16)) ∨
      (c.op = 0x2#4 ∧ c.b.extractLsb' 8 8 ≠ 0#8) ∨
      (c.op = 0x3#4 ∧ c.b ≠ 0#16) ∨
      ((c.op = 0x6#4 ∨ c.op = 0x7#4) ∧ (c.a ≠ 0#8 ∨ c.b.extractLsb' 2 14 ≠ 0#14))) →
    step s = .refused .badCommandWord

/-- Words written out from the tables of R60 and R61 decode to the operations they stand for. The word is the spec's
decision D14; the text bytes above bit 31 of a table word, first character lowest, are the model's choice, log entry 8. -/
def Obligations.CommandWordsDecode : Prop :=
  decodeTableWord 32 0x00000000 = some .enable ∧
  decodeTableWord 32 0x10FE1234 = some (.setSegments 0xFE#8 0x1234#16) ∧
  decodeTableWord 32 0x2003007B = some (.setCharacter 0x03#8 0x7B#8) ∧
  decodeTableWord 48 0x694830020000 = some (.setString [0x48#8, 0x69#8]) ∧
  decodeTableWord 32 0x40000000 = some .clear ∧ decodeTableWord 32 0x50000000 = some .allOn ∧
  decodeTableWord 32 0x60000003 = some (.setSymbol 0b11#2) ∧
  decodeTableWord 32 0x70000002 = some (.unsetSymbol 0b10#2) ∧
  decodeTableWord 32 0x90000000 = some (.reservedOp 0x10000000#31) ∧ decodeTableWord 32 0x01000000 = none

/-- Decoding an encoded operation gives it back, for every well-formed operation that has a command word, with every
operand (R60, R61). The word is the spec's decision D14. -/
def Obligations.DecodeInvertsEncode : Prop :=
  ∀ i : Instr, i.wellFormed = true → i.hasCommandWord = true → ∃ c, encode i = some c ∧ decode c = .ok i

/-- Every command that decodes is the one command of its operation: no two words mean the same, and no word decodes to
an internal or ill-formed operation (R61, R62, R112). The word is the spec's decision D14, the length of the text log
entry 6. -/
def Obligations.EncodeInvertsDecode : Prop :=
  ∀ (c : Command) (i : Instr), decode c = .ok i → encode i = some c ∧ i.wellFormed = true ∧ i.hasCommandWord = true

/-- The two wire formats round-trip: a frame's bits decode to it, and a bit string that decodes is that frame's bits
(R50, R52, R53, R64). That length and prefix tell the formats apart is log entry 24. -/
def Obligations.WireFramesRoundTrip : Prop :=
  ∀ cfg : Config, (∀ f : WireFrame, decodeFrame cfg (encodeFrame cfg f) = some f) ∧
    ∀ (bits : List Bit) (f : WireFrame), decodeFrame cfg bits = some f → encodeFrame cfg f = bits

/-- The bits of both frames in time order, every field most significant bit first and the pattern's low byte before its
high byte (R44, R52, R53). -/
def Obligations.FrameBitsInTimeOrder : Prop :=
  (∀ (cfg : Config) (cmd : Byte),
    sysFrame cfg cmd =
      [cfg.pfxCmd.getLsbD 2, cfg.pfxCmd.getLsbD 1, cfg.pfxCmd.getLsbD 0,
        cmd.getLsbD 7, cmd.getLsbD 6, cmd.getLsbD 5, cmd.getLsbD 4, cmd.getLsbD 3, cmd.getLsbD 2, cmd.getLsbD 1,
        cmd.getLsbD 0, false] ∧
      ofBitsMsb (sysFrame cfg cmd) = cfg.pfxCmd.toNat * 2 ^ 9 + cmd.toNat * 2) ∧
  ∀ (cfg : Config) (pos : Int) (p : Pattern),
    segFrame cfg pos p =
      (let a := addressContainer cfg pos
       [cfg.pfxWr.getLsbD 2, cfg.pfxWr.getLsbD 1, cfg.pfxWr.getLsbD 0,
        a.getLsbD 7, a.getLsbD 6, a.getLsbD 5, a.getLsbD 4, a.getLsbD 3, a.getLsbD 2,
        p.getLsbD 7, p.getLsbD 6, p.getLsbD 5, p.getLsbD 4, p.getLsbD 3, p.getLsbD 2, p.getLsbD 1, p.getLsbD 0,
        p.getLsbD 15, p.getLsbD 14, p.getLsbD 13, p.getLsbD 12, p.getLsbD 11, p.getLsbD 10, p.getLsbD 9,
        p.getLsbD 8]) ∧
      ofBitsMsb (segFrame cfg pos p) =
        cfg.pfxWr.toNat * 2 ^ 22 + (addressContainer cfg pos).toNat / 4 * 2 ^ 16 + p.toNat % 256 * 2 ^ 8 + p.toNat / 256

/-! ## Positions, addresses, glyphs, the overlay -/

/-- Positions map to cells in reverse: cell N - 1 - position, position N - 1 at cell 0, position 0 at cell N - 1, the
auxiliary position at cell N (R42). -/
def Obligations.PositionsMapInReverseOrder : Prop :=
  ∀ cfg : Config, 1 ≤ cfg.n →
    cellOf cfg ((cfg.n : Int) - 1) = 0 ∧ cellOf cfg 0 = cfg.n - 1 ∧ cellOf cfg (-1) = cfg.n ∧
    ∀ x : Int, inRange cfg x = true → (cellOf cfg x : Int) = (cfg.n : Int) - 1 - x ∧
      ∀ y : Int, inRange cfg y = true → x < y → cellOf cfg y < cellOf cfg x

/-- For a position in range of an admissible build the container is 16 times the cell, the address on the wire is 4
times the cell, and distinct positions have distinct addresses (R43, R55). R43 is the spec's own derivation. -/
def Obligations.AddressIsFourTimesTheCell : Prop :=
  ∀ (cfg : Config) (x : Int), cfg.Admissible → inRange cfg x = true →
    cellOf cfg x ≤ cfg.n ∧ (addressContainer cfg x).toNat = 16 * cellOf cfg x ∧
    (addressField cfg x).toNat = 4 * cellOf cfg x ∧
    ∀ y : Int, inRange cfg y = true → addressField cfg y = addressField cfg x → y = x

/-- ENCODE reads the entry at `character - ' '` of the symbols table or at `character - '@'` of the letters table, folds
'a'..'z', has no glyph elsewhere, and as an operation writes no state (R70). -/
def Obligations.EncodeReadsTheGlyphTables : Prop :=
  (∀ (ch : Byte) (s : State), exec (.encodeChar ch) s = .next s ∧ (encodeOp ch s).1 = glyphOf s.cfg ch) ∧
  ∀ (cfg : Config) (ch : Byte),
    (∀ i : Fin 26, ch.toNat = 0x20 + i.val → glyphOf cfg ch = some (glyphSym cfg i)) ∧
    (∀ i : Fin 27, ch.toNat = 0x40 + i.val → glyphOf cfg ch = some (glyphLet cfg i)) ∧
    (∀ i : Fin 26, ch.toNat = 0x61 + i.val → glyphOf cfg ch = some (glyphLet cfg ⟨i.val + 1, by omega⟩)) ∧
    (ch.toNat < 0x20 ∨ (0x3A ≤ ch.toNat ∧ ch.toNat ≤ 0x3F) ∨ (0x5B ≤ ch.toNat ∧ ch.toNat ≤ 0x60) ∨ 0x7B ≤ ch.toNat →
      glyphOf cfg ch = none)

/-- A lowercase letter has the glyph of its uppercase letter, and folding twice is folding once (R71). The idempotence
is the spec's own derivation. -/
def Obligations.LowercaseLettersShareTheUppercaseGlyph : Prop :=
  ∀ (cfg : Config) (ch : Byte),
    (0x61 ≤ ch.toNat → ch.toNat ≤ 0x7A → glyphOf cfg ch = glyphOf cfg (ch - 0x20#8)) ∧
    foldCase (foldCase ch) = foldCase ch

/-- Of the 256 codes exactly 79 have a glyph, whatever the build: 26, 27 and 26 in the three ranges (R73). The counts
are the spec's own derivation. -/
def Obligations.SeventyNineCodesHaveAGlyph : Prop :=
  ∀ cfg : Config,
    let count := fun lo hi => (List.range 256).countP fun k =>
      decide (lo ≤ k ∧ k ≤ hi) && (glyphOf cfg (BitVec.ofNat 8 k)).isSome
    count 0 255 = 79 ∧ count 0x20 0x39 = 26 ∧ count 0x40 0x5A = 27 ∧ count 0x61 0x7A = 26

/-- SLANTED matters at '2' and '3' alone, where it chooses between the base entry and the slanted one, and no operation
changes it (R74, R33). That the table is a base table and two alternates is the spec's decision D28. -/
def Obligations.SlantedChangesOnlyTwoAndThree : Prop :=
  (∀ (cfg : Config) (b : Bool) (ch : Byte), ch ≠ 0x32#8 → ch ≠ 0x33#8 →
    glyphOf { cfg with slanted := b } ch = glyphOf cfg ch) ∧
  (∀ cfg : Config,
    glyphOf cfg 0x32#8 = some (if cfg.slanted then cfg.glyph2Slant else cfg.glyphSymBase[18]) ∧
    glyphOf cfg 0x33#8 = some (if cfg.slanted then cfg.glyph3Slant else cfg.glyphSymBase[19])) ∧
  ∀ (i : Instr) (s t : State), exec i s = .next t → t.cfg.slanted = s.cfg.slanted

/-- OVL(SYM): the colon bits if SYM[0], the dot bits if SYM[1]; setting or clearing one flag leaves the other (R13). -/
def Obligations.OverlayOfTheTwoFlags : Prop :=
  ∀ (cfg : Config) (sym : BitVec 2),
    overlay cfg 0b00#2 = 0 ∧ overlay cfg 0b01#2 = cfg.segColon ∧ overlay cfg 0b10#2 = cfg.segDot ∧
    overlay cfg 0b11#2 = cfg.segColon ||| cfg.segDot ∧
    (symWith sym 0b01#2).getLsbD 1 = sym.getLsbD 1 ∧ (symWith sym 0b10#2).getLsbD 0 = sym.getLsbD 0 ∧
    (symWithout sym 0b01#2).getLsbD 1 = sym.getLsbD 1 ∧ (symWithout sym 0b10#2).getLsbD 0 = sym.getLsbD 0

/-! ## The transport -/

/-- START_TX drives CS low, WR and DATA high, holds, and opens the bracket; nothing else changes. From idle the waveform
gains only CS↓ (R80). -/
def Obligations.StartTxOpensTheBracket : Prop :=
  ∀ s : State, ∃ t : State, exec .startTx s = .next t ∧
    t.level = ⟨Level.low, Level.high, Level.high⟩ ∧ t.tx = .opened ∧
    t.trace = s.trace ++
      [.drive .cs Level.low, .drive .wr Level.high, .drive .data Level.high, .hold .tBit] ∧
    (s.TraceIdle → t.waveform = s.waveform ++ [.drive .cs Level.low]) ∧
    t.cfg = s.cfg ∧ t.mode = s.mode ∧ t.sym = s.sym ∧ t.dir = s.dir ∧ t.disp = s.disp ∧ t.port = s.port ∧
    t.shreg = s.shreg ∧ t.bitcnt = s.bitcnt

/-- Inside a bracket SEND_BITS(value, n) clocks value[7], ..., value[8-n]: per bit clock low, data, clock high, each
followed by a hold. SHREG ends shifted n places and BITCNT at 0. CS, TX, MODE, SYM, DIR and DISP do not change (R81,
D3). -/
def Obligations.SendBitsClocksTheTopBits : Prop :=
  ∀ (s : State) (value : Byte) (n : Nat), s.tx = .opened → 1 ≤ n → n ≤ 8 →
    ∃ t : State, exec (.sendBits value n) s = .next t ∧
      t.trace = s.trace ++ (((List.range n).map fun k => value.getLsbD (7 - k)).flatMap fun b =>
        [Event.drive .wr Level.low, .hold .tBit, .drive .data b, .hold .tBit, .drive .wr Level.high, .hold .tBit]) ∧
      t.level = ⟨s.level.cs, Level.high, value.getLsbD (8 - n)⟩ ∧ t.tx = .opened ∧
      t.shreg = value <<< n ∧ t.bitcnt = 0 ∧
      t.cfg = s.cfg ∧ t.mode = s.mode ∧ t.sym = s.sym ∧ t.dir = s.dir ∧ t.disp = s.disp ∧ t.port = s.port

/-- Inside a bracket END_TX holds, drives CS, DATA and CS again high, and closes the bracket; WR and all else are as
before (R82, D4). That DISP is as before whatever the bracket has sent is the model's choice, log entry 26. -/
def Obligations.EndTxClosesTheBracket : Prop :=
  ∀ s : State, s.tx = .opened → ∃ t : State, exec .endTx s = .next t ∧
    t.level = ⟨Level.high, s.level.wr, Level.high⟩ ∧ t.tx = .idle ∧
    t.trace = s.trace ++
      [.hold .tBit, .drive .cs Level.high, .drive .data Level.high, .drive .cs Level.high] ∧
    t.cfg = s.cfg ∧ t.mode = s.mode ∧ t.sym = s.sym ∧ t.dir = s.dir ∧ t.disp = s.disp ∧ t.port = s.port ∧
    t.shreg = s.shreg ∧ t.bitcnt = s.bitcnt

/-- Where the spec gives the transport no meaning the model stops by name: SEND_BITS and END_TX with no open bracket, and
a bit count of 0 or above 8 (R81, R82, R148, U7, U8; log entries 10 and 11). -/
def Obligations.TransportStopsOutsideItsPreconditions : Prop :=
  ∀ (s : State) (value : Byte) (n : Nat),
    (s.tx = .idle → exec (.sendBits value n) s = .fault .transportOutsideBracket ∧
      exec .endTx s = .fault .transportOutsideBracket) ∧
    (s.tx = .opened → n = 0 ∨ 8 < n → exec (.sendBits value n) s = .fault .bitCountOutOfRange)

/-- A transaction sent from idle is one frame of exactly its fields' bits: its waveform is CS↓, the bits, CS↑ and DATA↑
after a last 0; the frames recovered gain that one frame; the lines are idle again (R83, R84, R86). R83 and R84 are the
spec's own derivations; that the transport alone writes no cell is the model's choice, log entry 26. -/
def Obligations.TransactionIsOneFrame : Prop :=
  ∀ (s : State) (fields : List (Byte × Nat)), fields ≠ [] → (∀ f ∈ fields, 1 ≤ f.2 ∧ f.2 ≤ 8) → s.Idle → s.TraceIdle →
    let t := transaction fields s
    let bits := fieldBits fields
    t.waveform = s.waveform ++ frameWaveform bits ∧ t.frames = s.frames ++ [bits] ∧ t.Idle ∧ t.TraceIdle ∧
      t.disp = s.disp

/-! ## The protocol -/

/-- SYS_CMD completes in every state: from an idle bus the frames gain the SYS frame of its byte, and nothing else; the
lines end high; MODE, SYM, DIR, the build and DISP are as before (R90). -/
def Obligations.SysCmdSendsOneSysFrame : Prop :=
  ∀ (s : State) (cmd : Byte), ∃ t : State, exec (.sysCmd cmd) s = .next t ∧
    (s.TraceIdle → t.TraceIdle ∧ t.frames = s.frames ++ [sysFrame s.cfg cmd]) ∧
    LinesHigh t ∧ OnlySends s t ∧ t.disp = s.disp

/-- The three named system commands send the SYS frames of the build's three command bytes (R68). The order of events
rests on the spec's decisions D3 and D4. -/
def Obligations.NamedSystemCommandsSendTheirBytes : Prop :=
  ∀ s : State, ∀ x ∈ [(Instr.sysCmdSysEn, s.cfg.cmdSysEn), (Instr.sysCmdLcdOn, s.cfg.cmdLcdOn),
      (Instr.sysCmdBiasCom, s.cfg.cmdBiasCom)],
    ∃ t : State, exec x.1 s = .next t ∧
      t.trace = s.trace ++ frameEvents (sysFrame s.cfg x.2) ∧
      (s.TraceIdle → t.TraceIdle ∧ t.frames = s.frames ++ [sysFrame s.cfg x.2]) ∧
      LinesHigh t ∧ OnlySends s t ∧ t.disp = s.disp

/-- SEG_WRITE to a position in range completes: from an idle bus the frames gain the SEG frame of that position and
pattern, and nothing else; the lines end high; the pattern is recorded at cell N - 1 - position; every other cell and MODE,
SYM, DIR, the build are as before (R92). -/
def Obligations.SegWriteSendsOneSegFrame : Prop :=
  ∀ (s : State) (pos : Int) (p : Pattern), inRange s.cfg pos = true →
    ∃ t : State, exec (.segWrite pos p) s = .next t ∧
      (s.TraceIdle → t.TraceIdle ∧ t.frames = s.frames ++ [segFrame s.cfg pos p]) ∧
      LinesHigh t ∧ OnlySends s t ∧
      t.disp.read (cellOf s.cfg pos) = some p ∧ ∀ c, c ≠ cellOf s.cfg pos → t.disp.read c = s.disp.read c

/-- The raw events of one frame, in every state: SYS_CMD and SEG_WRITE append those of their frame, 42 drives and 38 holds
for SYS, 81 drives and 77 holds for SEG (R96). The events rest on the spec's decisions D3 and D4. -/
def Obligations.FrameEventsAndCounts : Prop :=
  ∀ (s : State) (cmd : Byte) (pos : Int) (p : Pattern), inRange s.cfg pos = true →
    let holds := fun es : List Event => es.countP fun e => decide (e = .hold .tBit)
    (∃ t es, exec (.sysCmd cmd) s = .next t ∧ t.trace = s.trace ++ es ∧ es = frameEvents (sysFrame s.cfg cmd) ∧
      holds es = 38 ∧ es.length = 42 + 38) ∧
    ∃ u es, exec (.segWrite pos p) s = .next u ∧ u.trace = s.trace ++ es ∧ es = frameEvents (segFrame s.cfg pos p) ∧
      holds es = 77 ∧ es.length = 81 + 77

/-! ## The driver -/

/-- SET_SEGMENTS on a position in range is exactly one SEG_WRITE: of the pattern, with OVL(SYM) OR-ed in at INDICATOR_POS
and nowhere else. SYM and MODE are as before, and so is every other cell (R101). -/
def Obligations.SetSegmentsSendsOneFrame : Prop :=
  ∀ (s : State) (pos : BitVec 8) (pat : Pattern), s.mode = .enabled → inRange s.cfg (positionOf pos) = true →
    ∃ t : State, exec (.setSegments pos pat) s = .next t ∧
      ∃ p : Pattern, (pos.toInt = s.cfg.indicatorPos → p = pat ||| overlay s.cfg s.sym) ∧
        (pos.toInt ≠ s.cfg.indicatorPos → p = pat) ∧
        exec (.segWrite pos.toInt p) s = .next t ∧
        (s.TraceIdle → t.TraceIdle ∧ t.frames = s.frames ++ [segFrame s.cfg pos.toInt p]) ∧
        LinesHigh t ∧ OnlySends s t ∧
        t.disp.read (cellOf s.cfg pos.toInt) = some p ∧
        ∀ c, c ≠ cellOf s.cfg pos.toInt → t.disp.read c = s.disp.read c

/-- SET_CHARACTER of a character that has a glyph does what SET_SEGMENTS does with that glyph: one SEG frame, overlay
included; lowercase and uppercase alike (R102). The position check is the spec's decision D13. -/
def Obligations.SetCharacterWritesTheGlyph : Prop :=
  ∀ (s : State) (pos : BitVec 8) (ch : Byte) (g : Pattern), s.mode = .enabled →
    inRange s.cfg (positionOf pos) = true → glyphOf s.cfg ch = some g →
    ∃ t : State, exec (.setCharacter pos ch) s = .next t ∧ exec (.setSegments pos g) s = .next t ∧
      exec (.setCharacter pos (foldCase ch)) s = .next t ∧
      (s.TraceIdle → t.frames = s.frames ++ [segFrame s.cfg pos.toInt (transmitted s.cfg s.sym pos.toInt g)]) ∧
      LinesHigh t ∧ OnlySends s t ∧
      t.disp.read (cellOf s.cfg pos.toInt) = some (transmitted s.cfg s.sym pos.toInt g) ∧
      ∀ c, c ≠ cellOf s.cfg pos.toInt → t.disp.read c = s.disp.read c

/-- A character with no glyph is a silent no-op: SET_CHARACTER of it at any position in range, and SET_STRING of a text of
such characters, leave the framer exactly as it was (R128). -/
def Obligations.UnmappedCharacterIsASilentNoOp : Prop :=
  ∀ s : State, s.mode = .enabled →
    (∀ (pos : BitVec 8) (ch : Byte), inRange s.cfg (positionOf pos) = true → glyphOf s.cfg ch = none →
      exec (.setCharacter pos ch) s = .next s) ∧
    ∀ text : List Byte, (∀ ch ∈ text.take s.cfg.n, glyphOf s.cfg ch = none) → exec (.setString text) s = .next s

/-- SET_STRING writes character i to position i for i below min(LEN, N): one SEG frame for each glyph, in order, with
the overlay; a character with no glyph keeps its place and leaves its cell, and all other cells, untouched. It completes
in every enabled state, for every text (R103, R104, D20). The events rest on the spec's decisions D3 and D4. -/
def Obligations.SetStringWritesLeftToRight : Prop :=
  ∀ (s : State) (text : List Byte), s.mode = .enabled →
    ∃ t : State, exec (.setString text) s = .next t ∧
      t.trace = s.trace ++ (stringFrames s.cfg s.sym text).flatMap frameEvents ∧
      (s.TraceIdle → t.TraceIdle ∧ t.frames = s.frames ++ stringFrames s.cfg s.sym text) ∧
      (LinesHigh s → LinesHigh t) ∧ OnlySends s t ∧
      (∀ (i : Nat) (hi : i < text.length) (g : Pattern), i < s.cfg.n → glyphOf s.cfg text[i] = some g →
        t.disp.read (cellOf s.cfg i) = some (transmitted s.cfg s.sym i g)) ∧
      ∀ c, (∀ (i : Nat) (hi : i < text.length), i < s.cfg.n → (glyphOf s.cfg text[i]).isSome = true →
          cellOf s.cfg i ≠ c) → t.disp.read c = s.disp.read c

/-- CLEAR requests 0x0000 of every position from -1 to N - 1: N + 1 SEG frames, 0 everywhere but OVL(SYM) at
INDICATOR_POS; SYM and MODE are as before (R106, and the spec's decisions D8 and D9). The events rest on D3 and D4 too.
-/
def Obligations.ClearRequestsZeroEverywhere : Prop :=
  ∀ s : State, s.mode = .enabled →
    ∃ t : State, exec .clear s = .next t ∧
      t.trace = s.trace ++ (fillFrames s.cfg s.sym 0x0000#16).flatMap frameEvents ∧
      (fillFrames s.cfg s.sym 0x0000#16).length = s.cfg.n + 1 ∧
      (s.TraceIdle → t.TraceIdle ∧ t.frames = s.frames ++ fillFrames s.cfg s.sym 0x0000#16) ∧
      LinesHigh t ∧ OnlySends s t ∧
      (∀ pos : Int, inRange s.cfg pos = true → t.disp.read (cellOf s.cfg pos) =
        some (if pos = s.cfg.indicatorPos then overlay s.cfg s.sym else 0)) ∧
      ∀ c, s.cfg.n < c → t.disp.read c = s.disp.read c

/-- ALL_ON writes 0xFFFF to every position including -1, whatever SYM is: N + 1 SEG frames (R105, D9). The events rest
on the spec's decisions D3 and D4 too. -/
def Obligations.AllOnSetsEverySegment : Prop :=
  ∀ s : State, s.mode = .enabled →
    ∃ t : State, exec .allOn s = .next t ∧
      (∃ fs, t.trace = s.trace ++ fs.flatMap frameEvents ∧
        fs = (allPositions s.cfg).map (fun pos => segFrame s.cfg pos 0xFFFF#16) ∧ fs.length = s.cfg.n + 1 ∧
        (s.TraceIdle → t.TraceIdle ∧ t.frames = s.frames ++ fs)) ∧
      LinesHigh t ∧ OnlySends s t ∧
      (∀ c, c ≤ s.cfg.n → t.disp.read c = some 0xFFFF#16) ∧ ∀ c, s.cfg.n < c → t.disp.read c = s.disp.read c

/-- ENABLE completes in every state: the three lines become outputs and go high, then the three system commands in their
fixed order, then a full clear; MODE becomes ENABLED and SYM keeps its value (R100, R111, and the spec's decisions D5, D7,
D30). -/
def Obligations.EnableSendsTheFixedSequence : Prop :=
  ∀ s : State, ∃ t : State, exec .enable s = .next t ∧
    t.mode = .enabled ∧ t.sym = s.sym ∧ t.cfg = s.cfg ∧ t.port = s.port ∧ t.Idle ∧
    t.trace = s.trace ++
      [.pinMode .cs, .pinMode .wr, .pinMode .data, .drive .cs Level.high, .drive .wr Level.high,
        .drive .data Level.high, .hold .tSettle] ++
      (enableSysFrames s.cfg ++ fillFrames s.cfg s.sym 0x0000#16).flatMap frameEvents ∧
    (s.trace = [] ∨ s.TraceIdle → t.TraceIdle ∧
      t.frames = s.frames ++ enableSysFrames s.cfg ++ fillFrames s.cfg s.sym 0x0000#16) ∧
    (∀ pos : Int, inRange s.cfg pos = true → t.disp.read (cellOf s.cfg pos) =
      some (if pos = s.cfg.indicatorPos then overlay s.cfg s.sym else 0)) ∧
    ∀ c, s.cfg.n < c → t.disp.read c = s.disp.read c

/-- The first ENABLE after power-on: exactly three system-command frames and then N + 1 segment-write frames of pattern 0,
and DISP = 0x0000 at every cell 0..N (R100 (a), R141, R144). It rests on SYM = 0 at reset (log entry 4). -/
def Obligations.FirstEnableBlanksEveryCell : Prop :=
  ∃ t : State, exec .enable State.reset = .next t ∧
    t.frames = enableSysFrames Config.device ++
      (allPositions Config.device).map (fun pos => segFrame Config.device pos 0x0000#16) ∧
    t.frames.length = 3 + (Config.device.n + 1) ∧ t.mode = .enabled ∧ t.Idle ∧
    ∀ c, c ≤ Config.device.n → t.disp.read c = some 0x0000#16

/-- SET_SYMBOL ORs the mask into SYM and changes nothing else: no event, no frame, no cell (R108). -/
def Obligations.SetSymbolOrsTheMask : Prop :=
  ∀ (s : State) (mask : BitVec 2), s.mode = .enabled →
    exec (.setSymbol mask) s = .next { s with sym := s.sym ||| mask }

/-- UNSET_SYMBOL clears the mask's bits of SYM and changes nothing else (R109). -/
def Obligations.UnsetSymbolClearsTheMask : Prop :=
  ∀ (s : State) (mask : BitVec 2), s.mode = .enabled →
    exec (.unsetSymbol mask) s = .next { s with sym := s.sym &&& ~~~mask }

/-- After SET_SYMBOL COLON the cell of INDICATOR_POS is as it was; a SET_SEGMENTS there directly after it transmits the
pattern with the colon bit; after UNSET_SYMBOL COLON the same call omits a colon bit the pattern does not have (R110). R110
is the spec's own derivation; every mask and every writer is SymbolChangesShowOnTheNextWrite. -/
def Obligations.ColonShowsOnTheNextWrite : Prop :=
  ∀ (s t u v w : State) (pos : BitVec 8) (pat : Pattern), s.cfg.Admissible →
    positionOf pos = s.cfg.indicatorPos → pat &&& s.cfg.segColon = 0 →
    exec (.setSymbol 0b01#2) s = .next t → exec (.setSegments pos pat) t = .next u →
    exec (.unsetSymbol 0b01#2) u = .next v → exec (.setSegments pos pat) v = .next w →
    let cell := cellOf s.cfg (positionOf pos)
    t.disp.read cell = s.disp.read cell ∧
    (∃ p, u.disp.read cell = some p ∧ p &&& s.cfg.segColon = s.cfg.segColon) ∧
    v.disp.read cell = u.disp.read cell ∧
    ∃ q, w.disp.read cell = some q ∧ q &&& s.cfg.segColon = 0 ∧
      q = pat ||| (if s.sym.getLsbD 1 then s.cfg.segDot else 0)

/-- Two consecutive CLEARs from a good enabled state send the same frames and leave the same cells (R106). It rests on
the spec's decisions D8 and D9. -/
def Obligations.RepeatedClearRepeatsItsFrames : Prop :=
  ∀ s t u : State, s.Inv → exec .clear s = .next t → exec .clear t = .next u →
    ∃ fs, t.frames = s.frames ++ fs ∧ u.frames = t.frames ++ fs ∧ fs.length = s.cfg.n + 1 ∧ u.disp = t.disp

/-- A second ENABLE sends the whole sequence again and leaves the state it found but for the record of what was sent:
MODE, SYM, the idle lines and DISP are the same (R100 (b), D30). -/
def Obligations.RepeatedEnableIsIdempotent : Prop :=
  ∀ s t u : State, s.Inv → exec .enable s = .next t → exec .enable t = .next u →
    u.mode = t.mode ∧ u.sym = t.sym ∧ u.dir = t.dir ∧ u.level = t.level ∧ u.tx = t.tx ∧ u.disp = t.disp ∧
      ∃ fs, t.frames = s.frames ++ fs ∧ u.frames = t.frames ++ fs ∧ fs.length = 3 + (s.cfg.n + 1)

/-- ENABLE appends one hold of T_SETTLE and 3·38 + (N+1)·77 holds of T_BIT, and no other hold; the held time grows by what
they stand for (R156, R157). The counts rest on the hold placement, decision D3; durations as numbers that are added up are
the model's choice, log entry 20. -/
def Obligations.EnableHeldTime : Prop :=
  ∀ s : State, ∃ (t : State) (es : List Event), exec .enable s = .next t ∧ t.trace = s.trace ++ es ∧
    (es.countP fun e => decide (e = .hold .tSettle)) = 1 ∧
    (es.countP fun e => decide (e = .hold .tBit)) = 3 * 38 + (s.cfg.n + 1) * 77 ∧
    heldTime s.cfg t.trace = heldTime s.cfg s.trace + s.cfg.tSettle + (3 * 38 + (s.cfg.n + 1) * 77) * s.cfg.tBit

/-! ## Refusals -/

/-- While MODE = UNINIT every host operation but ENABLE is refused with NotEnabled, whatever its operands; a reserved
code is refused with BadCommandWord first (R124, R122). The refusal is the spec's decision D12. -/
def Obligations.OnlyEnableRunsBeforeEnable : Prop :=
  ∀ (s : State) (i : Instr), s.mode = .uninit → i.hasCommandWord = true → i ≠ .enable → isReserved i = false →
    exec i s = .refused .notEnabled

/-- In the enabled mode a position outside -1..N-1 is refused with PositionOutOfRange, in SET_CHARACTER before the glyph
is looked up (R125, R122, the spec's decision D13). That SEG_WRITE, run as an instruction of its own, refuses it too, in
either mode, is the model's choice, log entry 13. -/
def Obligations.PositionOutOfRangeIsRefused : Prop :=
  ∀ s : State,
    (∀ (pos : BitVec 8), s.mode = .enabled → pos.toInt < -1 ∨ (s.cfg.n : Int) - 1 < pos.toInt →
      (∀ pat, exec (.setSegments pos pat) s = .refused .positionOutOfRange) ∧
      ∀ ch, exec (.setCharacter pos ch) s = .refused .positionOutOfRange) ∧
    ∀ (pos : Int) (p : Pattern), pos < -1 ∨ (s.cfg.n : Int) - 1 < pos →
      exec (.segWrite pos p) s = .refused .positionOutOfRange

/-- A reserved operation code is refused with BadCommandWord in every state (R62, D14). -/
def Obligations.ReservedOpIsRefused : Prop :=
  ∀ (s : State) (low : BitVec 31), exec (.reservedOp low) s = .refused .badCommandWord

/-- A host operation completes exactly when its code is defined, the mode admits it and its position is in range, and it
never faults: no multi-frame operation is cut short (R122, R127). The checks are the spec's decisions D12 to D14. -/
def Obligations.HostOperationsCompleteExactlyWhenAdmitted : Prop :=
  ∀ (s : State) (i : Instr), i.hasCommandWord = true →
    ((∃ t, exec i s = .next t) ↔ isReserved i = false ∧ (s.mode = .enabled ∨ i = .enable) ∧
      ∀ pos, hostPosition i = some pos → inRange s.cfg pos = true) ∧
    ∀ f, exec i s ≠ .fault f

/-! ## The whole machine -/

/-- ENABLE is the only transition of MODE, to ENABLED, and nothing leads back; MODE is UNINIT after reset (R11). -/
def Obligations.OnlyEnableChangesMode : Prop :=
  State.reset.mode = .uninit ∧
  ∀ (i : Instr) (s t : State), exec i s = .next t →
    (i = .enable → t.mode = .enabled) ∧ (i ≠ .enable → t.mode = s.mode)

/-- SYM is written by SET_SYMBOL and UNSET_SYMBOL alone (R12). That ENABLE keeps it is the spec's decision D7. -/
def Obligations.OnlySymbolOperationsChangeSym : Prop :=
  ∀ (i : Instr) (s t : State), exec i s = .next t → (∀ m, i ≠ .setSymbol m) → (∀ m, i ≠ .unsetSymbol m) →
    t.sym = s.sym

/-- No operation changes the build, so a glyph looked up later is the glyph looked up before (R34). -/
def Obligations.GlyphTablesAreImmutable : Prop :=
  ∀ (i : Instr) (s t : State), exec i s = .next t →
    t.cfg = s.cfg ∧ (∀ k, glyphSym t.cfg k = glyphSym s.cfg k) ∧ (∀ k, glyphLet t.cfg k = glyphLet s.cfg k) ∧
      ∀ ch, glyphOf t.cfg ch = glyphOf s.cfg ch

/-- TRACE is never shortened or rewritten: an operation only appends to it, and no operation reads or changes the host's
later commands (R25, R27). The port is the model's own, log entry 5. -/
def Obligations.TraceOnlyGrows : Prop :=
  ∀ (i : Instr) (s t : State), exec i s = .next t → s.trace <+: t.trace ∧ t.port = s.port

/-- Power-on: MODE = UNINIT, SYM = 0, TX = IDLE, no line configured, TRACE and DISP empty, no command presented (R28; all
but MODE are the spec's own choices or inferences, log entries 4 and 5). -/
def Obligations.ResetState : Prop :=
  State.reset.mode = .uninit ∧ State.reset.sym = 0 ∧ State.reset.tx = .idle ∧
  (∀ l, State.reset.dir.get l = .unconfigured) ∧ State.reset.trace = [] ∧ (∀ c, State.reset.disp.read c = none) ∧
  State.reset.port = [] ∧ State.reset.waveform = [] ∧ State.reset.frames = []

/-- The state after reset is a good one, with DISP, the frames and the waveform as they should be. The reset values are
the spec's decisions and derivations, log entry 4. -/
def Obligations.ResetIsGood : Prop :=
  State.reset.Inv ∧ State.reset.DispMatchesFrames ∧ (∀ f ∈ State.reset.frames, LegalFrame State.reset.cfg f) ∧
    DataStable Receiver.start State.reset.waveform

/-- Every step keeps the invariant between operations: an admissible build, canonical cells within 0..N, TX idle,
nothing done while UNINIT, and once ENABLED idle lines and every cell written (R29, R144). The invariant is the spec's
own derivation. -/
def Obligations.StepKeepsInvariant : Prop := ∀ s t : State, s.Inv → step s = .next t → t.Inv

/-- Every step keeps DISP equal to what the frames recovered from the pins say was sent to each cell (R46, R63). DISP is
the spec's own ghost, decision D16. -/
def Obligations.StepKeepsDispEqualToFrames : Prop :=
  ∀ s t : State, s.Inv → s.DispMatchesFrames → step s = .next t → t.DispMatchesFrames

/-- Every frame recovered after a step is a SYS frame with one of the three command bytes or a SEG frame to a position
in range, if that held before (R50, R54, R62). The refusals it needs are the spec's decisions D13 and D14. -/
def Obligations.StepSendsOnlyLegalFrames : Prop :=
  ∀ s t : State, s.Inv → (∀ f ∈ s.frames, LegalFrame s.cfg f) → step s = .next t → ∀ f ∈ t.frames, LegalFrame t.cfg f

/-- In the waveform after a step DATA changes inside a frame only while the write-clock is low, if that held before (R83
(d)). R83 is the spec's own derivation. -/
def Obligations.StepKeepsDataStable : Prop :=
  ∀ s t : State, s.Inv → DataStable Receiver.start s.waveform → step s = .next t →
    DataStable Receiver.start t.waveform

/-- Deleting holds and no-change events loses no frame: FRAMES of the waveform is FRAMES of the raw trace (R26, R63).
FRAMES is the spec's own, decision D16, and unknown levels are log entry 23. -/
def Obligations.WaveformLosesNoFrame : Prop := ∀ trace : List Event, framesOf (waveform trace) = framesOf trace

/-- A program that begins with ENABLE and whose other operations have defined codes and positions in range runs from
reset to its end without a refusal or a fault, and ends enabled and idle (R22, R127, R143). The port is the model's own,
log entry 5. -/
def Obligations.ProgramsThatEnableFirstComplete : Prop :=
  ∀ (is : List Instr) (cs : List Command), (∀ i ∈ is, Acceptable Config.device i) → is.mapM encode = some cs →
    ∃ t : State, RunsSafely (cs.length + 1) { State.reset with port := ⟨0x00000000#32, []⟩ :: cs } t ∧
      t.mode = .enabled ∧ t.Idle ∧ t.port = []

/-! ## Every symbol change, every writer -/

/-- SET_SYMBOL and UNSET_SYMBOL of every mask leave every cell as it is and send nothing; whatever comes between, the
next operation that writes INDICATOR_POS sends its pattern with the overlay of the new SYM: each flag that is set shows, and
one that is clear adds no bit (R150, R110). That CLEAR, ALL_ON and ENABLE are such writers is the spec's decision D8; the
two-bit SYM is D10. -/
def Obligations.SymbolChangesShowOnTheNextWrite : Prop :=
  ∀ (s : State) (mask v : BitVec 2) (i : Instr), s.mode = .enabled → s.cfg.Admissible →
    (i = .setSymbol mask ∧ v = s.sym ||| mask) ∨ (i = .unsetSymbol mask ∧ v = s.sym &&& ~~~mask) →
    ∃ t : State, exec i s = .next t ∧ t.sym = v ∧ t.disp = s.disp ∧ t.trace = s.trace ∧
      (∀ (t' : State) (w : Instr) (q : Pattern), t'.mode = .enabled → t'.cfg = s.cfg → t'.sym = v →
        WritesIndicator s.cfg w q →
        ∃ u : State, exec w t' = .next u ∧
          u.disp.read (cellOf s.cfg s.cfg.indicatorPos) = some (q ||| overlay s.cfg v)) ∧
      ∀ q : Pattern,
        (v.getLsbD 0 = true → (q ||| overlay s.cfg v) &&& s.cfg.segColon = s.cfg.segColon) ∧
        (v.getLsbD 0 = false → q &&& s.cfg.segColon = 0 → (q ||| overlay s.cfg v) &&& s.cfg.segColon = 0) ∧
        (v.getLsbD 1 = true → (q ||| overlay s.cfg v) &&& s.cfg.segDot = s.cfg.segDot) ∧
        (v.getLsbD 1 = false → q &&& s.cfg.segDot = 0 → (q ||| overlay s.cfg v) &&& s.cfg.segDot = 0)
end

