-- ==== Sys2Proof/Laws/State.lean ====
section
/-! SUPPORT. One lemma per field per update: the lines, and the three pin primitives. -/

namespace Sys2Proof

@[simp] theorem Lines.get_all {α : Type} (x : α) (l : Line) : (Lines.all x).get l = x := by cases l <;> rfl

@[simp] theorem Lines.get_set_same {α : Type} (ls : Lines α) (l : Line) (x : α) : (ls.set l x).get l = x := by
  cases l <;> rfl

theorem Lines.get_set_other {α : Type} (ls : Lines α) {l k : Line} (x : α) (h : k ≠ l) :
    (ls.set l x).get k = ls.get k := by
  cases l <;> cases k <;> first | rfl | exact absurd rfl h

@[simp] theorem Lines.set_cs {α : Type} (ls : Lines α) (x : α) : ls.set .cs x = ⟨x, ls.wr, ls.data⟩ := rfl
@[simp] theorem Lines.set_wr {α : Type} (ls : Lines α) (x : α) : ls.set .wr x = ⟨ls.cs, x, ls.data⟩ := rfl
@[simp] theorem Lines.set_data {α : Type} (ls : Lines α) (x : α) : ls.set .data x = ⟨ls.cs, ls.wr, x⟩ := rfl

/-- Setting a line to the value it has changes nothing. -/
theorem Lines.set_get {α : Type} (ls : Lines α) (l : Line) : ls.set l (ls.get l) = ls := by cases l <;> rfl

namespace Machine.State

variable (s : State) (l : Line) (v : Level) (t : Delay)

@[simp] theorem pinMode_cfg : (s.pinMode l).cfg = s.cfg := rfl
@[simp] theorem pinMode_mode : (s.pinMode l).mode = s.mode := rfl
@[simp] theorem pinMode_sym : (s.pinMode l).sym = s.sym := rfl
@[simp] theorem pinMode_level : (s.pinMode l).level = s.level := rfl
@[simp] theorem pinMode_dir : (s.pinMode l).dir = s.dir.set l .output := rfl
@[simp] theorem pinMode_tx : (s.pinMode l).tx = s.tx := rfl
@[simp] theorem pinMode_shreg : (s.pinMode l).shreg = s.shreg := rfl
@[simp] theorem pinMode_bitcnt : (s.pinMode l).bitcnt = s.bitcnt := rfl
@[simp] theorem pinMode_disp : (s.pinMode l).disp = s.disp := rfl
@[simp] theorem pinMode_port : (s.pinMode l).port = s.port := rfl
@[simp] theorem pinMode_trace : (s.pinMode l).trace = s.trace ++ [.pinMode l] := List.reverse_cons

@[simp] theorem drive_cfg : (s.drive l v).cfg = s.cfg := rfl
@[simp] theorem drive_mode : (s.drive l v).mode = s.mode := rfl
@[simp] theorem drive_sym : (s.drive l v).sym = s.sym := rfl
@[simp] theorem drive_level : (s.drive l v).level = s.level.set l v := rfl
@[simp] theorem drive_dir : (s.drive l v).dir = s.dir := rfl
@[simp] theorem drive_tx : (s.drive l v).tx = s.tx := rfl
@[simp] theorem drive_shreg : (s.drive l v).shreg = s.shreg := rfl
@[simp] theorem drive_bitcnt : (s.drive l v).bitcnt = s.bitcnt := rfl
@[simp] theorem drive_disp : (s.drive l v).disp = s.disp := rfl
@[simp] theorem drive_port : (s.drive l v).port = s.port := rfl
@[simp] theorem drive_trace : (s.drive l v).trace = s.trace ++ [.drive l v] := List.reverse_cons

@[simp] theorem hold_cfg : (s.hold t).cfg = s.cfg := rfl
@[simp] theorem hold_mode : (s.hold t).mode = s.mode := rfl
@[simp] theorem hold_sym : (s.hold t).sym = s.sym := rfl
@[simp] theorem hold_level : (s.hold t).level = s.level := rfl
@[simp] theorem hold_dir : (s.hold t).dir = s.dir := rfl
@[simp] theorem hold_tx : (s.hold t).tx = s.tx := rfl
@[simp] theorem hold_shreg : (s.hold t).shreg = s.shreg := rfl
@[simp] theorem hold_bitcnt : (s.hold t).bitcnt = s.bitcnt := rfl
@[simp] theorem hold_disp : (s.hold t).disp = s.disp := rfl
@[simp] theorem hold_port : (s.hold t).port = s.port := rfl
@[simp] theorem hold_trace : (s.hold t).trace = s.trace ++ [.hold t] := List.reverse_cons

end Machine.State

end Sys2Proof
end

