-- ==== Sys2Proof/Laws/Transport.lean ====
section
/-! SUPPORT. What the transport operations do, said once: the events they append, the latches they leave, and all they
leave alone. -/

namespace Sys2Proof

/-- The first `n` bits sent of a container are its bits from the most significant down. -/
theorem take_bitsMsb {w n : Nat} (x : BitVec w) (h : n ≤ w) :
    (bitsMsb x).take n = (List.range n).map fun i => x.getMsbD i := by
  rw [bitsMsb, ← List.map_take, List.take_range, Nat.min_eq_left h]

@[simp] theorem length_bitsMsb {w : Nat} (x : BitVec w) : (bitsMsb x).length = w := by simp [bitsMsb]

namespace Machine

/-- `t` comes from `s` by pin activity alone: the events `es` are appended to TRACE, and the build, MODE, SYM, DIR and the
host's later commands are as they were. -/
structure Emits (s t : State) (es : List Event) : Prop where
  cfg : t.cfg = s.cfg
  mode : t.mode = s.mode
  sym : t.sym = s.sym
  dir : t.dir = s.dir
  port : t.port = s.port
  trace : t.trace = s.trace ++ es

theorem Emits.refl (s : State) : Emits s s [] := ⟨rfl, rfl, rfl, rfl, rfl, by simp⟩

theorem Emits.trans {s t u : State} {es fs : List Event} (h : Emits s t es) (k : Emits t u fs) :
    Emits s u (es ++ fs) :=
  ⟨k.cfg.trans h.cfg, k.mode.trans h.mode, k.sym.trans h.sym, k.dir.trans h.dir, k.port.trans h.port,
    by rw [k.trace, h.trace, List.append_assoc]⟩

theorem startTx_emits (s : State) : Emits s (startTx s) startEvents :=
  ⟨rfl, rfl, rfl, rfl, rfl, by simp [startTx, State.trace, State.drive, State.hold, startEvents]⟩

theorem endTx_emits (s : State) : Emits s (endTx s) endEvents :=
  ⟨rfl, rfl, rfl, rfl, rfl, by simp [endTx, State.trace, State.drive, State.hold, endEvents]⟩

theorem sendBit_emits (s : State) : Emits s (sendBit s) (bitEvents s.shreg.msb) :=
  ⟨rfl, rfl, rfl, rfl, rfl, by simp [sendBit, State.trace, State.drive, State.hold, bitEvents]⟩

theorem sendBit_shreg (s : State) : (sendBit s).shreg = s.shreg <<< 1 := rfl

/-- The bits still to send, seen from the shifted container. -/
theorem bits_shift (x : Byte) (k : Nat) :
    (List.range (k + 1)).map (fun i => x.getMsbD i) =
      x.msb :: (List.range k).map fun i => (x <<< 1).getMsbD i := by
  rw [List.range_succ_eq_map, List.map_cons, List.map_map]
  refine congrArg₂ _ (by simp [BitVec.msb]) (List.map_congr_left fun i _ => ?_)
  simp [BitVec.getMsbD_shiftLeft]

theorem sendLoop_emits (k : Nat) (s : State) :
    Emits s (sendLoop k s) (((List.range k).map fun i => s.shreg.getMsbD i).flatMap bitEvents) := by
  induction k generalizing s with
  | zero => exact Emits.refl s
  | succ k ih =>
    rw [bits_shift, List.flatMap_cons]
    exact (sendBit_emits s).trans (ih (sendBit s))

/-- SEND_BITS appends the events of the top n bits of the container (R81). -/
theorem sendBits_emits (v : Byte) {n : Nat} (h : n ≤ 8) (s : State) :
    Emits s (sendBits v n s) (((bitsMsb v).take n).flatMap bitEvents) := by
  rw [take_bitsMsb v h]
  have := sendLoop_emits n { s with shreg := v, bitcnt := Fin.ofNat 9 n }
  exact ⟨this.cfg, this.mode, this.sym, this.dir, this.port, this.trace⟩

@[simp] theorem startTx_tx (s : State) : (startTx s).tx = .opened := rfl
@[simp] theorem endTx_tx (s : State) : (endTx s).tx = .idle := rfl
@[simp] theorem startTx_disp (s : State) : (startTx s).disp = s.disp := rfl
@[simp] theorem endTx_disp (s : State) : (endTx s).disp = s.disp := rfl
@[simp] theorem startTx_shreg (s : State) : (startTx s).shreg = s.shreg := rfl
@[simp] theorem startTx_bitcnt (s : State) : (startTx s).bitcnt = s.bitcnt := rfl
@[simp] theorem endTx_shreg (s : State) : (endTx s).shreg = s.shreg := rfl
@[simp] theorem endTx_bitcnt (s : State) : (endTx s).bitcnt = s.bitcnt := rfl

/-- START_TX leaves chip-select low and the other two lines high (R83 (a)). -/
@[simp] theorem startTx_level (s : State) : (startTx s).level = ⟨Level.low, Level.high, Level.high⟩ := rfl

/-- END_TX leaves chip-select and data high and does not drive write-clock (R82). -/
@[simp] theorem endTx_level (s : State) : (endTx s).level = ⟨Level.high, s.level.wr, Level.high⟩ := rfl

theorem sendLoop_tx_disp (k : Nat) (s : State) : (sendLoop k s).tx = s.tx ∧ (sendLoop k s).disp = s.disp := by
  induction k generalizing s with
  | zero => exact ⟨rfl, rfl⟩
  | succ k ih => exact ih (sendBit s)

@[simp] theorem sendBits_tx (v : Byte) (n : Nat) (s : State) : (sendBits v n s).tx = s.tx :=
  (sendLoop_tx_disp n _).1

@[simp] theorem sendBits_disp (v : Byte) (n : Nat) (s : State) : (sendBits v n s).disp = s.disp :=
  (sendLoop_tx_disp n _).2

/-- SHREG is shifted once per bit sent (R81). -/
theorem sendLoop_shreg (k : Nat) (s : State) : (sendLoop k s).shreg = s.shreg <<< k := by
  induction k generalizing s with
  | zero => exact (BitVec.shiftLeft_zero _).symm
  | succ k ih => rw [sendLoop, ih, sendBit_shreg, ← BitVec.shiftLeft_add, Nat.add_comm]

/-- BITCNT is counted down once per bit sent (R81). -/
theorem sendLoop_bitcnt (k : Nat) (s : State) : (sendLoop k s).bitcnt = s.bitcnt - Fin.ofNat 9 k := by
  induction k generalizing s with
  | zero => simp [sendLoop]
  | succ k ih =>
    rw [sendLoop, ih]
    have h : (sendBit s).bitcnt = s.bitcnt - 1 := rfl
    have e : Fin.ofNat 9 (k + 1) = 1 + Fin.ofNat 9 k := by
      apply Fin.ext
      simp [Fin.ofNat, Fin.add_def, Nat.add_comm]
    rw [h, e, sub_add_eq_sub_sub]

theorem sendBits_shreg (v : Byte) (n : Nat) (s : State) : (sendBits v n s).shreg = v <<< n := sendLoop_shreg n _

theorem sendBits_bitcnt (v : Byte) (n : Nat) (s : State) : (sendBits v n s).bitcnt = 0 :=
  (sendLoop_bitcnt n _).trans (sub_self _)

/-- After at least one bit: chip-select as before, write-clock high, data at the last bit sent (R81, R83 (b)). -/
theorem sendLoop_level (k : Nat) (s : State) :
    (sendLoop (k + 1) s).level = ⟨s.level.cs, Level.high, s.shreg.getMsbD k⟩ := by
  induction k generalizing s with
  | zero => simp [sendLoop, sendBit, State.drive, State.hold, BitVec.msb]
  | succ k ih =>
    have h := ih (sendBit s)
    rw [sendLoop, h, sendBit_shreg, BitVec.getMsbD_shiftLeft]
    rfl

theorem sendBits_level (v : Byte) {n : Nat} (h : 1 ≤ n) (s : State) :
    (sendBits v n s).level = ⟨s.level.cs, Level.high, v.getMsbD (n - 1)⟩ := by
  obtain ⟨k, rfl⟩ := Nat.exists_eq_add_of_le' h
  exact sendLoop_level k _

/-- Whatever the fields, write-clock ends high if it was high before. -/
theorem sendBits_wr (v : Byte) (n : Nat) (s : State) (h : s.level.wr = Level.high) :
    (sendBits v n s).level.wr = Level.high := by
  cases n with
  | zero => exact h
  | succ k => rw [sendBits_level v (Nat.succ_pos k)]

theorem foldl_sendBits (fields : List (Byte × Nat)) (hn : ∀ f ∈ fields, f.2 ≤ 8) (s : State) :
    Emits s (fields.foldl (fun t f => sendBits f.1 f.2 t) s) ((fieldBits fields).flatMap bitEvents) ∧
      (fields.foldl (fun t f => sendBits f.1 f.2 t) s).disp = s.disp ∧
      (s.level.wr = Level.high → (fields.foldl (fun t f => sendBits f.1 f.2 t) s).level.wr = Level.high) := by
  induction fields generalizing s with
  | nil => exact ⟨Emits.refl s, rfl, id⟩
  | cons f fields ih =>
    have hf := sendBits_emits f.1 (hn f (List.mem_cons_self)) s
    obtain ⟨h1, h2, h3⟩ := ih (fun g hg => hn g (List.mem_cons_of_mem _ hg)) (sendBits f.1 f.2 s)
    refine ⟨?_, h2.trans (sendBits_disp _ _ _), fun hw => h3 (sendBits_wr _ _ _ hw)⟩
    rw [fieldBits, List.flatMap_cons, List.flatMap_append]
    exact hf.trans h1

/-- A transaction appends the events of one frame with its fields' bits (R86). -/
theorem transaction_emits (fields : List (Byte × Nat)) (hn : ∀ f ∈ fields, f.2 ≤ 8) (s : State) :
    Emits s (transaction fields s) (frameEvents (fieldBits fields)) := by
  have h := ((startTx_emits s).trans (foldl_sendBits fields hn (startTx s)).1).trans (endTx_emits _)
  exact h

@[simp] theorem transaction_disp (fields : List (Byte × Nat)) (hn : ∀ f ∈ fields, f.2 ≤ 8) (s : State) :
    (transaction fields s).disp = s.disp :=
  (foldl_sendBits fields hn (startTx s)).2.1

@[simp] theorem transaction_tx (fields : List (Byte × Nat)) (s : State) : (transaction fields s).tx = .idle := rfl

/-- Every complete frame leaves all three lines high (R83 (c)). -/
theorem transaction_level (fields : List (Byte × Nat)) (hn : ∀ f ∈ fields, f.2 ≤ 8) (s : State) :
    (transaction fields s).level = Lines.all Level.high := by
  have h := (foldl_sendBits fields hn (startTx s)).2.2 rfl
  rw [transaction, endTx_level, h]
  rfl

end Machine

end Sys2Proof
end

