-- ==== Sys2Proof/Laws/Wave.lean ====
section
/-! SUPPORT. The laws of the observation: the waveform and the receiver over appended events, the waveform loses no
frame, and what one whole frame looks like to the pins, to the waveform and to the receiver. -/

namespace Sys2Proof.Machine

/-! ## Appended events -/

theorem Pins.after_append (p : Pins) (es fs : List Event) : p.after (es ++ fs) = (p.after es).after fs :=
  List.foldl_append

theorem Receiver.after_append (r : Receiver) (es fs : List Event) : r.after (es ++ fs) = (r.after es).after fs :=
  List.foldl_append

theorem waveFrom_append (p : Pins) (es fs : List Event) :
    waveFrom p (es ++ fs) = waveFrom p es ++ waveFrom (p.after es) fs := by
  induction es generalizing p with
  | nil => rfl
  | cons e es ih =>
    rw [List.cons_append, waveFrom, waveFrom, ih]
    split
    · rfl
    · rfl

theorem waveform_append (es fs : List Event) :
    waveform (es ++ fs) = waveform es ++ waveFrom (Pins.powerOn.after es) fs :=
  waveFrom_append _ _ _

/-! ## The receiver on the waveform and on the trace -/

/-- The receiver knows the levels the pins have. -/
theorem Receiver.event_level (r : Receiver) (p : Pins) (e : Event) (h : r.level = p.level) :
    (r.event e).level = (p.event e).level := by
  cases e with
  | pinMode l => exact h
  | hold t => exact h
  | drive l v => cases l <;> simp [Receiver.event, Pins.event, h]

/-- An event that changes no wire tells the receiver nothing. -/
theorem Receiver.event_unchanged (r : Receiver) (p : Pins) (e : Event) (h : r.level = p.level)
    (hu : p.unchangedBy e = true) : r.event e = r := by
  cases e with
  | pinMode l => rfl
  | hold t => rfl
  | drive l v =>
    simp only [Pins.unchangedBy, Bool.and_eq_true, decide_eq_true_eq] at hu
    rw [← h] at hu
    have hset : r.level.set l (some v) = r.level := by rw [← hu.2]; exact Lines.set_get _ _
    obtain ⟨⟨c, w, d⟩, cur, cl⟩ := r
    cases l <;> cases v <;>
      simp_all [Receiver.event, Receiver.chipSelect, Receiver.writeClock, Lines.get]

theorem Pins.event_unchanged_level (p : Pins) (e : Event) (hu : p.unchangedBy e = true) :
    (p.event e).level = p.level := by
  cases e with
  | pinMode l => rfl
  | hold t => rfl
  | drive l v =>
    simp only [Pins.unchangedBy, Bool.and_eq_true, decide_eq_true_eq] at hu
    simp only [Pins.event, ← hu.2, Lines.set_get]

/-- Reading the waveform or the whole trace, the receiver ends the same. -/
theorem Receiver.after_waveFrom (es : List Event) (r : Receiver) (p : Pins) (h : r.level = p.level) :
    r.after (waveFrom p es) = r.after es := by
  induction es generalizing r p with
  | nil => rfl
  | cons e es ih =>
    rw [waveFrom]
    split
    · rename_i hu
      have h1 := r.event_unchanged p e h hu
      have h2 := ih r (p.event e) (h.trans (p.event_unchanged_level e hu).symm)
      simpa [Receiver.after, h1] using h2
    · exact ih (r.event e) (p.event e) (r.event_level p e h)

theorem Receiver.after_waveform (es : List Event) : Receiver.start.after (waveform es) = Receiver.start.after es :=
  Receiver.after_waveFrom es _ _ rfl

theorem State.frames_eq (s : State) : s.frames = (Receiver.start.after s.trace).closed :=
  congrArg Receiver.closed (Receiver.after_waveform s.trace)

theorem Receiver.after_level (es : List Event) (r : Receiver) (p : Pins) (h : r.level = p.level) :
    (r.after es).level = (p.after es).level := by
  induction es generalizing r p with
  | nil => exact h
  | cons e es ih => exact ih (r.event e) (p.event e) (r.event_level p e h)

/-! ## One frame -/

/-- The pins are idle: all outputs, all high. -/
abbrev Pins.idle : Pins := ⟨Lines.all .output, Lines.all (some Level.high)⟩

/-- A receiver at idle with the given frames closed. -/
abbrev Receiver.idle (closed : List (List Bit)) : Receiver := ⟨Lines.all (some Level.high), none, closed⟩

theorem Receiver.after_bitEvents (bits : List Bit) (d : Level) (cur : List Bit) (closed : List (List Bit)) :
    Receiver.after ⟨⟨some Level.low, some Level.high, some d⟩, some cur, closed⟩ (bits.flatMap bitEvents) =
      ⟨⟨some Level.low, some Level.high, some (bits.getLastD d)⟩, some (cur ++ bits), closed⟩ := by
  induction bits generalizing d cur with
  | nil => simp [Receiver.after]
  | cons b bits ih =>
    rw [List.flatMap_cons, Receiver.after_append]
    have h : Receiver.after ⟨⟨some Level.low, some Level.high, some d⟩, some cur, closed⟩ (bitEvents b) =
        ⟨⟨some Level.low, some Level.high, some b⟩, some (cur ++ [b]), closed⟩ := by
      simp [Receiver.after, bitEvents, Receiver.event, Receiver.writeClock]
    rw [h, ih]
    simp only [List.getLastD_cons, List.append_assoc, List.cons_append, List.nil_append]

/-- From idle, the events of a frame close exactly that frame (R84). -/
theorem Receiver.after_frameEvents (bits : List Bit) (closed : List (List Bit)) :
    (Receiver.idle closed).after (frameEvents bits) = Receiver.idle (closed ++ [bits]) := by
  rw [frameEvents, Receiver.after_append, Receiver.after_append]
  have h : (Receiver.idle closed).after startEvents =
      ⟨⟨some Level.low, some Level.high, some Level.high⟩, some [], closed⟩ := by
    simp [Receiver.after, startEvents, Receiver.event, Receiver.chipSelect, Receiver.writeClock, Lines.all]
  rw [h, Receiver.after_bitEvents]
  simp [Receiver.after, endEvents, Receiver.event, Receiver.chipSelect, Lines.all]

theorem Pins.after_bitEvents (bits : List Bit) (d : Level) (c : Option Level) :
    Pins.after ⟨Lines.all .output, ⟨c, some Level.high, some d⟩⟩ (bits.flatMap bitEvents) =
      ⟨Lines.all .output, ⟨c, some Level.high, some (bits.getLastD d)⟩⟩ := by
  induction bits generalizing d with
  | nil => rfl
  | cons b bits ih =>
    rw [List.flatMap_cons, Pins.after_append, List.getLastD_cons, ← ih b]
    rfl

/-- A frame leaves the pins idle (R83 (c)). -/
theorem Pins.after_frameEvents (bits : List Bit) : Pins.idle.after (frameEvents bits) = Pins.idle := by
  rw [frameEvents, Pins.after_append, Pins.after_append]
  have h := Pins.after_bitEvents bits Level.high (some Level.low)
  have h0 : Pins.idle.after startEvents = ⟨Lines.all .output, ⟨some Level.low, some Level.high, some Level.high⟩⟩ := rfl
  rw [h0, h]
  rfl

theorem waveFrom_bitEvents (bits : List Bit) (d : Level) :
    waveFrom ⟨Lines.all .output, ⟨some Level.low, some Level.high, some d⟩⟩ (bits.flatMap bitEvents) =
      bitsWaveform d bits := by
  induction bits generalizing d with
  | nil => rfl
  | cons b bits ih =>
    rw [List.flatMap_cons, waveFrom_append, bitsWaveform, ← ih b]
    have h1 : waveFrom ⟨Lines.all .output, ⟨some Level.low, some Level.high, some d⟩⟩ (bitEvents b) =
        [Event.drive .wr Level.low] ++ (if b = d then [] else [Event.drive .data b]) ++ [Event.drive .wr Level.high] := by
      cases b <;> cases d <;> rfl
    rw [h1]
    rfl

/-- The waveform of a frame sent from idle (R84). -/
theorem waveFrom_frameEvents (bits : List Bit) (h : bits ≠ []) :
    waveFrom Pins.idle (frameEvents bits) = frameWaveform bits := by
  rw [frameEvents, waveFrom_append, waveFrom_append, frameWaveform, Pins.after_append]
  have h0 : Pins.idle.after startEvents = ⟨Lines.all .output, ⟨some Level.low, some Level.high, some Level.high⟩⟩ := rfl
  rw [h0, waveFrom_bitEvents, Pins.after_bitEvents]
  have hl : bits.getLast? = some (bits.getLastD Level.high) := by
    cases bits with
    | nil => exact absurd rfl h
    | cons b bs => simp [List.getLast?_cons]
  rw [hl, List.append_assoc ([Event.drive .cs Level.low] ++ _)]
  refine congrArg₂ _ rfl ?_
  cases bits.getLastD Level.high <;> rfl

end Sys2Proof.Machine
end

