-- ==== Sys2Proof/Laws/Frames.lean ====
section
/-! SUPPORT. Bits of concatenations, the fields of a transaction against the frame formats, the frame codec, and the
address arithmetic. -/

namespace Sys2Proof

/-! ## Bits, most significant first -/

theorem bitsMsb_append {v w : Nat} (x : BitVec v) (y : BitVec w) : bitsMsb (x ++ y) = bitsMsb x ++ bitsMsb y := by
  rw [bitsMsb, List.range_add, List.map_append, List.map_map]
  refine congrArg₂ _ (List.map_congr_left fun i hi => ?_) (List.map_congr_left fun i _ => ?_)
  · simp [BitVec.getMsbD_append, List.mem_range.mp hi]
  · simp [BitVec.getMsbD_append]

theorem getElem?_bitsMsb {w : Nat} (x : BitVec w) (i : Nat) (h : i < w) : (bitsMsb x)[i]? = some (x.getMsbD i) := by
  simp [bitsMsb, h]

/-- Two values with the same bits are the same. -/
theorem bitsMsb_injective {w : Nat} {x y : BitVec w} (h : bitsMsb x = bitsMsb y) : x = y := by
  refine BitVec.eq_of_getMsbD_eq fun i hi => ?_
  have h1 := congrArg (fun l => l[i]?) h
  simp only [getElem?_bitsMsb _ i hi] at h1
  exact Option.some.inj h1

theorem ofBitsMsb_append_one (bits : List Bit) (b : Bit) : ofBitsMsb (bits ++ [b]) = 2 * ofBitsMsb bits + b.toNat := by
  simp [ofBitsMsb]

theorem bitsMsb_cons {w : Nat} (b : Bool) (x : BitVec w) : bitsMsb (BitVec.cons b x) = b :: bitsMsb x := by
  rw [bitsMsb, List.range_succ_eq_map, List.map_cons, List.map_map]
  refine congrArg₂ _ (by simp) (List.map_congr_left fun i hi => ?_)
  have hi := List.mem_range.mp hi
  simp only [Function.comp_apply, BitVec.getMsbD, Nat.succ_eq_add_one, BitVec.getLsbD_cons]
  have h2 : w - (i + 1) = w - 1 - i := by omega
  have h3 : w - 1 - i ≠ w := by omega
  simp [h2, h3, hi]

theorem bitsMsb_concat {w : Nat} (x : BitVec w) (b : Bool) : bitsMsb (x.concat b) = bitsMsb x ++ [b] := by
  rw [bitsMsb, List.range_succ, List.map_append]
  refine congrArg₂ _ (List.map_congr_left fun i hi => ?_) (by simp [BitVec.getMsbD_concat])
  simp [BitVec.getMsbD_concat, List.mem_range.mp hi]

/-- Reading the bits back gives the value. -/
theorem ofBitsMsb_bitsMsb {w : Nat} (x : BitVec w) : ofBitsMsb (bitsMsb x) = x.toNat := by
  induction w with
  | zero => simp [bitsMsb, ofBitsMsb, BitVec.of_length_zero]
  | succ w ih =>
    have hx : x = (x.extractLsb' 1 w).concat (x.getLsbD 0) := by
      refine BitVec.eq_of_getLsbD_eq fun i hi => ?_
      rw [BitVec.getLsbD_concat, BitVec.getLsbD_extractLsb']
      cases i with
      | zero => simp
      | succ i => simp [Nat.add_comm 1 i, show i < w by omega]
    rw [hx, bitsMsb_concat, ofBitsMsb_append_one, ih, BitVec.toNat_concat]
    ring

theorem ofBitsMsb_lt (bits : List Bit) : ofBitsMsb bits < 2 ^ bits.length := by
  induction bits using List.reverseRecOn with
  | nil => simp [ofBitsMsb]
  | append_singleton bits b ih =>
    rw [ofBitsMsb_append_one, List.length_append, List.length_singleton, pow_succ]
    have : b.toNat ≤ 1 := Bool.toNat_le b
    omega

/-- A bit string is the bits of the number it spells. -/
theorem bitsMsb_ofBitsMsb (bits : List Bit) {w : Nat} (h : bits.length = w) :
    bitsMsb (BitVec.ofNat w (ofBitsMsb bits)) = bits := by
  subst h
  induction bits using List.reverseRecOn with
  | nil => rfl
  | append_singleton bits b ih =>
    have hlt := ofBitsMsb_lt bits
    have : BitVec.ofNat (bits ++ [b]).length (ofBitsMsb (bits ++ [b])) =
        ((BitVec.ofNat bits.length (ofBitsMsb bits)).concat b).cast (by simp) := by
      apply BitVec.eq_of_toNat_eq
      rw [BitVec.toNat_cast, BitVec.toNat_concat, BitVec.toNat_ofNat, BitVec.toNat_ofNat,
        Nat.mod_eq_of_lt (ofBitsMsb_lt _), Nat.mod_eq_of_lt hlt, ofBitsMsb_append_one]
      ring
    rw [this]
    have cast_bits : ∀ {v u : Nat} (e : v = u) (x : BitVec v), bitsMsb (x.cast e) = bitsMsb x := by
      intro v u e x
      subst e
      rfl
    rw [cast_bits, bitsMsb_concat, ih]

namespace Machine

/-! ## The fields of a transaction -/

theorem bits_prefix (p : BitVec 3) : (bitsMsb (prefixContainer p)).take 3 = bitsMsb p := by
  revert p
  decide

theorem bits_top_six (a : Byte) : (bitsMsb a).take 6 = bitsMsb (a.extractLsb' 2 6) := by
  revert a
  decide

theorem bits_pad : (bitsMsb 0x00#8).take 1 = bitsMsb 0#1 := by decide

theorem take_all_bits (x : Byte) : (bitsMsb x).take 8 = bitsMsb x := List.take_of_length_le (by simp)

/-- The fields SYS_CMD sends are the SYS frame, bit for bit (R52, R90). -/
theorem fieldBits_sys (cfg : Config) (cmd : Byte) : fieldBits (sysFields cfg cmd) = sysFrame cfg cmd := by
  have h : sysFrame cfg cmd = bitsMsb (cfg.pfxCmd ++ cmd ++ 0#1 : BitVec (3 + 8 + 1)) := rfl
  rw [h, bitsMsb_append, bitsMsb_append]
  simp [fieldBits, sysFields, bits_prefix, take_all_bits, bits_pad]

/-- The fields SEG_WRITE sends are the SEG frame, bit for bit (R53, R92). -/
theorem fieldBits_seg (cfg : Config) (pos : Int) (p : Pattern) : fieldBits (segFields cfg pos p) = segFrame cfg pos p := by
  have h : segFrame cfg pos p = bitsMsb (cfg.pfxWr ++ addressField cfg pos ++ p.extractLsb' 0 8 ++ p.extractLsb' 8 8 :
      BitVec (3 + 6 + 8 + 8)) := rfl
  rw [h, bitsMsb_append, bitsMsb_append, bitsMsb_append]
  simp [fieldBits, segFields, bits_prefix, take_all_bits, bits_top_six, addressField, lowByte, highByte]

theorem sysFields_counts (cfg : Config) (cmd : Byte) : ∀ f ∈ sysFields cfg cmd, f.2 ≤ 8 := by simp [sysFields]

theorem segFields_counts (cfg : Config) (pos : Int) (p : Pattern) : ∀ f ∈ segFields cfg pos p, f.2 ≤ 8 := by
  simp [segFields]

@[simp] theorem length_sysFrame (cfg : Config) (cmd : Byte) : (sysFrame cfg cmd).length = 12 := length_bitsMsb _

@[simp] theorem length_segFrame (cfg : Config) (pos : Int) (p : Pattern) : (segFrame cfg pos p).length = 25 :=
  length_bitsMsb _

theorem sysFrame_ne_nil (cfg : Config) (cmd : Byte) : sysFrame cfg cmd ≠ [] :=
  List.ne_nil_of_length_eq_add_one (length_sysFrame cfg cmd)

theorem segFrame_ne_nil (cfg : Config) (pos : Int) (p : Pattern) : segFrame cfg pos p ≠ [] :=
  List.ne_nil_of_length_eq_add_one (length_segFrame cfg pos p)

/-! ## Positions, cells, addresses -/

theorem inRange_iff (cfg : Config) (pos : Int) : inRange cfg pos = true ↔ -1 ≤ pos ∧ pos ≤ (cfg.n : Int) - 1 := by
  simp [inRange]

theorem cellOf_cast {cfg : Config} {pos : Int} (h : inRange cfg pos = true) :
    (cellOf cfg pos : Int) = (cfg.n : Int) - 1 - pos := by
  have := (inRange_iff cfg pos).mp h
  rw [cellOf]
  omega

theorem cellOf_le {cfg : Config} {pos : Int} (h : inRange cfg pos = true) : cellOf cfg pos ≤ cfg.n := by
  have := cellOf_cast h
  have := (inRange_iff cfg pos).mp h
  omega

theorem cellOf_injective {cfg : Config} {x y : Int} (hx : inRange cfg x = true) (hy : inRange cfg y = true)
    (h : cellOf cfg x = cellOf cfg y) : x = y := by
  have := cellOf_cast hx
  have := cellOf_cast hy
  omega

/-- The container and the address field as numbers (R43, R55). -/
theorem addressField_eq {cfg : Config} {pos : Int} (hn : cellOf cfg pos ≤ 15) :
    addressField cfg pos = BitVec.ofNat 6 (4 * cellOf cfg pos) := by
  have key : ∀ k : Fin 16, ((BitVec.ofNat 8 k.val <<< 4).extractLsb' 2 6) = BitVec.ofNat 6 (4 * k.val) := by decide
  exact key ⟨cellOf cfg pos, by omega⟩

theorem allPositions_inRange {cfg : Config} {pos : Int} (h : pos ∈ allPositions cfg) : inRange cfg pos = true := by
  obtain ⟨k, hk, rfl⟩ := List.mem_map.mp h
  have := List.mem_range.mp hk
  exact (inRange_iff _ _).mpr (by omega)

theorem mem_allPositions {cfg : Config} {pos : Int} (h : inRange cfg pos = true) : pos ∈ allPositions cfg := by
  have := (inRange_iff cfg pos).mp h
  exact List.mem_map.mpr ⟨(pos + 1).toNat, List.mem_range.mpr (by omega), by omega⟩

theorem nodup_allPositions (cfg : Config) : (allPositions cfg).Nodup :=
  List.Nodup.map (fun _ _ h => by simpa using h) List.nodup_range

/-- Every cell 0..N belongs to a position (R42). -/
theorem exists_position {cfg : Config} {c : Nat} (h : c ≤ cfg.n) : ∃ pos, inRange cfg pos = true ∧ cellOf cfg pos = c :=
  ⟨(cfg.n : Int) - 1 - c, (inRange_iff _ _).mpr (by omega), by rw [cellOf]; omega⟩

/-! ## The frame codec -/

theorem extract_high {u v : Nat} (x : BitVec u) (y : BitVec v) : (x ++ y).extractLsb' v u = x := by
  refine BitVec.eq_of_getLsbD_eq fun i hi => ?_
  simp [BitVec.getLsbD_append, hi]

theorem extract_low {u v : Nat} (x : BitVec u) (y : BitVec v) : (x ++ y).extractLsb' 0 v = y := by
  refine BitVec.eq_of_getLsbD_eq fun i hi => ?_
  simp [BitVec.getLsbD_append, hi]

theorem extract_skip {u v : Nat} (x : BitVec u) (y : BitVec v) (k m : Nat) :
    (x ++ y).extractLsb' (v + k) m = x.extractLsb' k m := by
  refine BitVec.eq_of_getLsbD_eq fun i hi => ?_
  simp only [BitVec.getLsbD_extractLsb', BitVec.getLsbD_append]
  rw [if_neg (by omega), show v + k + i - v = k + i by omega]

/-- The fields of SYS(cmd) (R52). -/
theorem sysWord_fields (cfg : Config) (cmd : Byte) :
    (sysWord cfg cmd).extractLsb' 9 3 = cfg.pfxCmd ∧ (sysWord cfg cmd).extractLsb' 0 1 = 0#1 ∧
      (sysWord cfg cmd).extractLsb' 1 8 = cmd :=
  ⟨(extract_skip (cfg.pfxCmd ++ cmd) 0#1 8 3).trans (extract_high cfg.pfxCmd cmd),
    extract_low (cfg.pfxCmd ++ cmd) 0#1,
    (extract_skip (cfg.pfxCmd ++ cmd) 0#1 0 8).trans (extract_low cfg.pfxCmd cmd)⟩

/-- The fields of SEG(addr6, p) (R53). -/
theorem segWord_fields (cfg : Config) (addr : BitVec 6) (p : Pattern) :
    (segWord cfg addr p).extractLsb' 22 3 = cfg.pfxWr ∧ (segWord cfg addr p).extractLsb' 16 6 = addr ∧
      (segWord cfg addr p).extractLsb' 8 8 = p.extractLsb' 0 8 ∧
      (segWord cfg addr p).extractLsb' 0 8 = p.extractLsb' 8 8 :=
  ⟨((extract_skip (cfg.pfxWr ++ addr ++ p.extractLsb' 0 8) (p.extractLsb' 8 8) 14 3).trans
      (extract_skip (cfg.pfxWr ++ addr) (p.extractLsb' 0 8) 6 3)).trans (extract_high cfg.pfxWr addr),
    ((extract_skip (cfg.pfxWr ++ addr ++ p.extractLsb' 0 8) (p.extractLsb' 8 8) 8 6).trans
      (extract_skip (cfg.pfxWr ++ addr) (p.extractLsb' 0 8) 0 6)).trans (extract_low cfg.pfxWr addr),
    (extract_skip (cfg.pfxWr ++ addr ++ p.extractLsb' 0 8) (p.extractLsb' 8 8) 0 8).trans
      (extract_low (cfg.pfxWr ++ addr) (p.extractLsb' 0 8)),
    extract_low (cfg.pfxWr ++ addr ++ p.extractLsb' 0 8) (p.extractLsb' 8 8)⟩

/-- A pattern is its high byte followed by its low byte. -/
theorem pattern_bytes (p : Pattern) : p.extractLsb' 8 8 ++ p.extractLsb' 0 8 = p := by
  refine BitVec.eq_of_getLsbD_eq fun i hi => ?_
  simp only [BitVec.getLsbD_append, BitVec.getLsbD_extractLsb']
  by_cases h : i < 8
  · simp [h]
  · simp [h, show i - 8 < 8 by omega, show 8 + (i - 8) = i by omega]

theorem ofNat_ofBitsMsb_bitsMsb {w : Nat} (x : BitVec w) : BitVec.ofNat w (ofBitsMsb (bitsMsb x)) = x := by
  rw [ofBitsMsb_bitsMsb, BitVec.ofNat_toNat, BitVec.setWidth_eq]

theorem decodeFrame_sys (cfg : Config) (cmd : Byte) : decodeFrame cfg (sysFrame cfg cmd) = some (.sys cmd) := by
  obtain ⟨h1, h2, h3⟩ := sysWord_fields cfg cmd
  simp only [decodeFrame, sysFrame, encodeFrame, length_bitsMsb, ofNat_ofBitsMsb_bitsMsb, h1, h2, h3]
  simp

theorem decodeFrame_seg (cfg : Config) (addr : BitVec 6) (p : Pattern) :
    decodeFrame cfg (encodeFrame cfg (.seg addr p)) = some (.seg addr p) := by
  obtain ⟨h1, h2, h3, h4⟩ := segWord_fields cfg addr p
  simp only [decodeFrame, encodeFrame, length_bitsMsb, ofNat_ofBitsMsb_bitsMsb, h1, h2, h3, h4, pattern_bytes]
  simp

/-- Receiving a SYS frame leaves DISP as it is (R46). -/
theorem receiveFrame_sys (cfg : Config) (m : Memory) (cmd : Byte) : receiveFrame cfg m (sysFrame cfg cmd) = m := by
  rw [receiveFrame, decodeFrame_sys]

/-- Receiving the SEG frame of a position in range records its pattern at the position's cell (R46). -/
theorem receiveFrame_seg {cfg : Config} {pos : Int} (hn : cfg.n ≤ 15) (h : inRange cfg pos = true) (m : Memory)
    (p : Pattern) : receiveFrame cfg m (segFrame cfg pos p) = m.write (cellOf cfg pos) p := by
  have hc := cellOf_le h
  have key : ∀ k : Fin 16, (BitVec.ofNat 6 (4 * k.val)).extractLsb' 0 2 = 0#2 ∧
      ((BitVec.ofNat 6 (4 * k.val)).extractLsb' 2 4).toNat = k.val := by decide
  obtain ⟨h0, h1⟩ := key ⟨cellOf cfg pos, by omega⟩
  rw [receiveFrame, segFrame, decodeFrame_seg]
  simp only [addressField_eq (by omega : cellOf cfg pos ≤ 15)]
  rw [if_pos ⟨h0, by rw [h1]; exact hc⟩, h1]

end Machine

end Sys2Proof
end

