-- ==== Sys2Proof/Laws/CommandWord.lean ====
section
/-! SUPPORT. The four fields of a command word (R60): reading back a packed word, and the reserved codes as its top bit. -/

namespace Sys2Proof

variable (op : BitVec 4) (a : BitVec 8) (b : BitVec 16) (text : List Byte)

theorem Command.op_pack : Command.op ⟨packWord op a b, text⟩ = op :=
  ((Machine.extract_skip (op ++ 0#4 ++ a) b 12 4).trans (Machine.extract_skip (op ++ 0#4) a 4 4)).trans
    (Machine.extract_high op 0#4)

theorem Command.rsv_pack : Command.rsv ⟨packWord op a b, text⟩ = 0#4 :=
  ((Machine.extract_skip (op ++ 0#4 ++ a) b 8 4).trans (Machine.extract_skip (op ++ 0#4) a 0 4)).trans
    (Machine.extract_low op 0#4)

theorem Command.a_pack : Command.a ⟨packWord op a b, text⟩ = a :=
  (Machine.extract_skip (op ++ 0#4 ++ a) b 0 8).trans (Machine.extract_low (op ++ 0#4) a)

theorem Command.b_pack : Command.b ⟨packWord op a b, text⟩ = b := Machine.extract_low (op ++ 0#4 ++ a) b

/-- The codes 0x8..0xF are those whose top bit, the top bit of the word, is 1 (R61). -/
theorem Command.msb_iff (c : Command) : c.word.msb = true ↔ 8 ≤ c.op.toNat := by
  have h : c.op.toNat = c.word.toNat / 2 ^ 28 % 2 ^ 4 := by
    simp [Command.op, BitVec.extractLsb'_toNat, Nat.shiftRight_eq_div_pow]
  have := c.word.isLt
  rw [BitVec.msb_eq_true_iff_two_mul_ge, h]
  omega

theorem Command.msb_pack (h : op.toNat < 8) : (packWord op a b).msb = false := by
  rw [← Bool.not_eq_true, Command.msb_iff ⟨packWord op a b, []⟩, Command.op_pack]
  omega

/-- The word of a reserved code: its top bit is 1 and its other bits are kept (R62). -/
theorem reserved_word (low : BitVec 31) :
    (1#1 ++ low : BitVec 32).msb = true ∧ (1#1 ++ low : BitVec 32).extractLsb' 0 31 = low := by
  have h : (1#1 ++ low : BitVec (1 + 31)).msb = true := by rw [BitVec.msb_append]; rfl
  exact ⟨h, Machine.extract_low 1#1 low⟩

end Sys2Proof
end

