-- ==== Sys2Proof/Laws/Memory.lean ====
section
/-! SUPPORT. The laws of the cell space DISP: read after write, and the canonical form every write keeps. -/

namespace Sys2Proof.Machine.Memory

theorem read_write_same (m : Memory) (c : Nat) (p : Pattern) : read (write m c p) c = some p := by
  induction m with
  | nil => simp [write, read]
  | cons e m ih =>
    obtain ⟨k, q⟩ := e
    unfold write
    split
    · simp [read]
    · split
      · simp [read]
      · rename_i h1 h2
        simpa [read, h2] using ih

theorem read_write_other (m : Memory) {c d : Nat} (p : Pattern) (h : d ≠ c) : read (write m c p) d = read m d := by
  induction m with
  | nil => simp [write, read, h]
  | cons e m ih =>
    obtain ⟨k, q⟩ := e
    unfold write
    split
    · simp [read, h]
    · split
      · rename_i h1 h2
        subst h2
        simp [read, h]
      · simp [read, ih]

/-- The entries after a write are the new one and old ones. -/
theorem mem_write {m : Memory} {c : Nat} {p : Pattern} {e : Nat × Pattern} (h : e ∈ write m c p) :
    e = (c, p) ∨ e ∈ m := by
  induction m with
  | nil => simpa [write] using h
  | cons x m ih =>
    obtain ⟨k, q⟩ := x
    unfold write at h
    split at h
    · simpa using h
    · split at h
      · rcases List.mem_cons.mp h with h | h
        · exact .inl h
        · exact .inr (List.mem_cons_of_mem _ h)
      · rcases List.mem_cons.mp h with h | h
        · exact .inr (by simp [h])
        · exact (ih h).imp id (List.mem_cons_of_mem _)

/-- A write keeps the canonical form. -/
theorem wf_write {m : Memory} (h : m.wf) (c : Nat) (p : Pattern) : (write m c p).wf := by
  induction m with
  | nil => simp [wf, write]
  | cons x m ih =>
    obtain ⟨k, q⟩ := x
    obtain ⟨hk, hm⟩ := List.pairwise_cons.mp h
    unfold write
    split
    · rename_i hc
      refine List.pairwise_cons.mpr ⟨fun e he => ?_, h⟩
      rcases List.mem_cons.mp he with rfl | he
      · exact hc
      · exact Nat.lt_trans hc (hk e he)
    · split
      · rename_i _ hc
        subst hc
        exact List.pairwise_cons.mpr ⟨hk, hm⟩
      · refine List.pairwise_cons.mpr ⟨fun e he => ?_, ih hm⟩
        rcases mem_write he with rfl | he
        · simp only
          omega
        · exact hk e he

/-- A write to a cell at most `n` keeps all cells at most `n`. -/
theorem bounded_write {m : Memory} {n c : Nat} (h : ∀ e ∈ m, e.1 ≤ n) (hc : c ≤ n) (p : Pattern) :
    ∀ e ∈ write m c p, e.1 ≤ n := by
  intro e he
  rcases mem_write he with rfl | he
  · exact hc
  · exact h e he

/-- The last of two writes to a cell counts. -/
theorem write_write (m : Memory) (c : Nat) (p q : Pattern) : write (write m c p) c q = write m c q := by
  induction m with
  | nil => simp [write]
  | cons x m ih =>
    obtain ⟨k, r⟩ := x
    by_cases h1 : c < k
    · simp [write, h1]
    · by_cases h2 : c = k
      · subst h2
        simp [write]
      · simp [write, h1, h2, ih]

/-- Below the first listed cell nothing reads as written. -/
theorem read_of_lt {m : Memory} {c : Nat} (h : ∀ e ∈ m, c < e.1) : read m c = none := by
  induction m with
  | nil => rfl
  | cons x m ih =>
    obtain ⟨k, q⟩ := x
    have hk : c < k := h _ List.mem_cons_self
    rw [read, if_neg (by omega)]
    exact ih fun e he => h e (List.mem_cons_of_mem _ he)

/-- The canonical form: cell spaces that read alike are equal data. -/
theorem eq_of_read_eq {m n : Memory} (hm : m.wf) (hn : n.wf) (h : ∀ c, read m c = read n c) : m = n := by
  induction m generalizing n with
  | nil =>
    cases n with
    | nil => rfl
    | cons y n => simpa [read] using h y.1
  | cons x m ih =>
    obtain ⟨k, q⟩ := x
    cases n with
    | nil => simpa [read] using h k
    | cons y n =>
      obtain ⟨j, r⟩ := y
      obtain ⟨hk, hm'⟩ := List.pairwise_cons.mp hm
      obtain ⟨hj, hn'⟩ := List.pairwise_cons.mp hn
      have hkj : k = j := by
        rcases Nat.lt_trichotomy k j with hlt | he | hlt
        · have := h k
          rw [read, if_pos rfl, read_of_lt] at this
          · cases this
          · intro e he
            rcases List.mem_cons.mp he with rfl | he
            · exact hlt
            · exact Nat.lt_trans hlt (hj e he)
        · exact he
        · have := h j
          rw [read_of_lt, read, if_pos rfl] at this
          · cases this
          · intro e he
            rcases List.mem_cons.mp he with rfl | he
            · exact hlt
            · exact Nat.lt_trans hlt (hk e he)
      subst hkj
      have hqr : q = r := by simpa [read] using h k
      subst hqr
      refine congrArg _ (ih hm' hn' fun c => ?_)
      by_cases hc : c = k
      · subst hc
        rw [read_of_lt hk, read_of_lt hj]
      · simpa [read, hc] using h c

end Sys2Proof.Machine.Memory
end

