-- ==== Sys2Proof/Laws/Writes.lean ====
section
/-! SUPPORT. What the protocol and driver operations do, said once: each is a list of segment writes (or a system
command), with the frames, the cells and the lines that go with it. -/

namespace Sys2Proof.Machine

/-! ## Frames sent from an idle bus -/

theorem State.TraceIdle.receiver {s : State} (h : s.TraceIdle) :
    Receiver.start.after s.trace = Receiver.idle s.frames := by
  have hp := h.pins
  have hl := Receiver.after_level s.trace Receiver.start Pins.powerOn rfl
  have hc := h.noFrame
  rw [State.waveform, Receiver.after_waveform] at hc
  rw [hp] at hl
  rw [State.frames_eq]
  generalize Receiver.start.after s.trace = r at *
  obtain ⟨l, c, f⟩ := r
  simp_all

/-- The trace after a receiver at idle has read it and the pins have ended idle. -/
theorem traceIdle_of {t : State} {closed : List (List Bit)} (hp : Pins.powerOn.after t.trace = Pins.idle)
    (hr : Receiver.start.after t.trace = Receiver.idle closed) : t.TraceIdle ∧ t.frames = closed :=
  ⟨⟨hp, by rw [State.waveform, Receiver.after_waveform, hr]⟩, by rw [State.frames_eq, hr]⟩

theorem Pins.after_frames (fs : List (List Bit)) : Pins.idle.after (fs.flatMap frameEvents) = Pins.idle := by
  induction fs with
  | nil => rfl
  | cons f fs ih => rw [List.flatMap_cons, Pins.after_append, Pins.after_frameEvents, ih]

theorem Receiver.after_frames (fs closed : List (List Bit)) :
    (Receiver.idle closed).after (fs.flatMap frameEvents) = Receiver.idle (closed ++ fs) := by
  induction fs generalizing closed with
  | nil => simp [Receiver.after]
  | cons f fs ih => rw [List.flatMap_cons, Receiver.after_append, Receiver.after_frameEvents, ih, List.append_assoc,
      List.singleton_append]

/-- Frames appended to a trace that ends idle: they are the frames recovered, and the trace ends idle again. -/
theorem Emits.frames {s t : State} {fs : List (List Bit)} (h : Emits s t (fs.flatMap frameEvents)) (hi : s.TraceIdle) :
    t.TraceIdle ∧ t.frames = s.frames ++ fs := by
  refine traceIdle_of ?_ ?_
  · rw [h.trace, Pins.after_append, hi.pins, Pins.after_frames]
  · rw [h.trace, Receiver.after_append, hi.receiver, Receiver.after_frames]

theorem Emits.onlySends {s t : State} {es : List Event} (h : Emits s t es) : OnlySends s t :=
  ⟨h.cfg, h.mode, h.sym, h.dir, h.port, ⟨es, h.trace.symm⟩⟩

/-- The lines are idle after an operation that leaves them high, if they were outputs before. -/
theorem idle_of {s t : State} (hi : s.Idle) (hd : t.dir = s.dir) (hl : LinesHigh t) : t.Idle :=
  ⟨hl.tx, hd.trans hi.dir, hl.level⟩

/-! ## System commands -/

theorem sysCmd_emits (cmd : Byte) (s : State) : Emits s (sysCmd cmd s) (frameEvents (sysFrame s.cfg cmd)) := by
  have h := transaction_emits (sysFields s.cfg cmd) (sysFields_counts _ _) s
  rwa [fieldBits_sys] at h

@[simp] theorem sysCmd_disp (cmd : Byte) (s : State) : (sysCmd cmd s).disp = s.disp :=
  transaction_disp _ (sysFields_counts _ _) s

theorem sysCmd_lines (cmd : Byte) (s : State) : LinesHigh (sysCmd cmd s) :=
  ⟨rfl, transaction_level _ (sysFields_counts _ _) s⟩

/-! ## Segment writes -/

/-- The cell space after a list of writes, each a position and the pattern transmitted to it. -/
def writeAll (cfg : Config) (m : Memory) (ws : List (Int × Pattern)) : Memory :=
  ws.foldl (fun m w => m.write (cellOf cfg w.1) w.2) m

/-- The frames of a list of writes. -/
def writeFrames (cfg : Config) (ws : List (Int × Pattern)) : List (List Bit) := ws.map fun w => segFrame cfg w.1 w.2

/-- `t` comes from `s` by the segment writes `ws`, in order, and nothing else. -/
structure Writes (s t : State) (ws : List (Int × Pattern)) : Prop where
  emits : Emits s t ((writeFrames s.cfg ws).flatMap frameEvents)
  disp : t.disp = writeAll s.cfg s.disp ws
  lines : LinesHigh s ∨ ws ≠ [] → LinesHigh t

theorem Writes.refl (s : State) : Writes s s [] := ⟨Emits.refl s, rfl, fun h => h.resolve_right (by simp)⟩

theorem Writes.trans {s t u : State} {ws vs : List (Int × Pattern)} (h : Writes s t ws) (k : Writes t u vs) :
    Writes s u (ws ++ vs) := by
  have hc := h.emits.cfg
  refine ⟨?_, ?_, fun hl => ?_⟩
  · have := h.emits.trans (hc ▸ k.emits)
    simpa [writeFrames] using this
  · rw [k.disp, h.disp, hc, writeAll, writeAll, writeAll, List.foldl_append]
  · by_cases hv : vs = []
    · subst hv
      exact k.lines (.inl (h.lines (by simpa using hl)))
    · exact k.lines (.inr hv)

@[simp] theorem segWrite_tx (pos : Int) (p : Pattern) (s : State) : (segWrite pos p s).tx = .idle := rfl

theorem segWrite_level (pos : Int) (p : Pattern) (s : State) : (segWrite pos p s).level = Lines.all Level.high := by
  rw [← transaction_level (segFields s.cfg pos p) (segFields_counts _ _ _) s]
  rfl

theorem segWrite_writes (pos : Int) (p : Pattern) (s : State) : Writes s (segWrite pos p s) [(pos, p)] := by
  have h := transaction_emits (segFields s.cfg pos p) (segFields_counts _ _ _) s
  rw [fieldBits_seg] at h
  have he : Emits s (segWrite pos p s) (frameEvents (segFrame s.cfg pos p)) := by
    unfold segWrite
    generalize transaction (segFields s.cfg pos p) s = t at h
    exact ⟨h.cfg, h.mode, h.sym, h.dir, h.port, h.trace⟩
  refine ⟨?_, ?_, fun _ => ⟨segWrite_tx pos p s, segWrite_level pos p s⟩⟩
  · rw [writeFrames, List.map_singleton, List.flatMap_singleton]
    exact he
  · have hd := transaction_disp (segFields s.cfg pos p) (segFields_counts _ _ _) s
    unfold segWrite
    generalize transaction (segFields s.cfg pos p) s = t at hd
    exact congrArg (fun m => Memory.write m (cellOf s.cfg pos) p) hd

theorem setSegments_writes (pos : Int) (pat : Pattern) (s : State) :
    Writes s (setSegments pos pat s) [(pos, transmitted s.cfg s.sym pos pat)] :=
  segWrite_writes _ _ s

/-- The write a character causes, if it has a glyph (R102). -/
def characterWrites (cfg : Config) (sym : BitVec 2) (pos : Int) (ch : Byte) : List (Int × Pattern) :=
  ((glyphOf cfg ch).map fun g => (pos, transmitted cfg sym pos g)).toList

theorem setCharacter_writes (pos : Int) (ch : Byte) (s : State) :
    Writes s (setCharacter pos ch s) (characterWrites s.cfg s.sym pos ch) := by
  unfold setCharacter characterWrites
  cases glyphOf s.cfg ch with
  | none => exact Writes.refl s
  | some g => exact setSegments_writes pos g s

/-- The writes of the characters of a text, from a position on (R103). -/
def textWrites (cfg : Config) (sym : BitVec 2) (pos : Int) : List Byte → List (Int × Pattern)
  | [] => []
  | ch :: rest => characterWrites cfg sym pos ch ++ textWrites cfg sym (pos + 1) rest

theorem setCharactersFrom_writes (text : List Byte) (pos : Int) (s : State) :
    Writes s (setCharactersFrom pos text s) (textWrites s.cfg s.sym pos text) := by
  induction text generalizing pos s with
  | nil => exact Writes.refl s
  | cons ch text ih =>
    have h := setCharacter_writes pos ch s
    have k := ih (pos + 1) (setCharacter pos ch s)
    rw [h.emits.cfg, h.emits.sym] at k
    exact h.trans k

theorem setString_writes (text : List Byte) (s : State) :
    Writes s (setString text s) (textWrites s.cfg s.sym 0 (text.take s.cfg.n)) :=
  setCharactersFrom_writes _ 0 s

/-- The writes of CLEAR and ALL_ON (R105, R106). -/
def fillWrites (cfg : Config) (sym : BitVec 2) (pat : Pattern) : List (Int × Pattern) :=
  (allPositions cfg).map fun pos => (pos, transmitted cfg sym pos pat)

theorem foldl_setSegments_writes (ps : List Int) (pat : Pattern) (s : State) :
    Writes s (ps.foldl (fun t pos => setSegments pos pat t) s)
      (ps.map fun pos => (pos, transmitted s.cfg s.sym pos pat)) := by
  induction ps generalizing s with
  | nil => exact Writes.refl s
  | cons p ps ih =>
    have h := setSegments_writes p pat s
    have k := ih (setSegments p pat s)
    rw [h.emits.cfg, h.emits.sym] at k
    rw [List.foldl_cons, List.map_cons, ← List.singleton_append]
    exact h.trans k

theorem fill_writes (pat : Pattern) (s : State) : Writes s (fill pat s) (fillWrites s.cfg s.sym pat) :=
  foldl_setSegments_writes _ pat s

theorem fillWrites_ne_nil (cfg : Config) (sym : BitVec 2) (pat : Pattern) : fillWrites cfg sym pat ≠ [] := by
  simp [fillWrites, allPositions]

/-! ## The cells after a list of writes -/

theorem writeAll_wf (cfg : Config) {m : Memory} (h : m.wf) (ws : List (Int × Pattern)) : (writeAll cfg m ws).wf := by
  induction ws generalizing m with
  | nil => exact h
  | cons w ws ih => exact ih (Memory.wf_write h _ _)

theorem writeAll_bounded (cfg : Config) {m : Memory} (h : ∀ e ∈ m, e.1 ≤ cfg.n) (ws : List (Int × Pattern))
    (hw : ∀ w ∈ ws, inRange cfg w.1 = true) : ∀ e ∈ writeAll cfg m ws, e.1 ≤ cfg.n := by
  induction ws generalizing m with
  | nil => exact h
  | cons w ws ih =>
    exact ih (Memory.bounded_write h (cellOf_le (hw w List.mem_cons_self)) _) fun v hv => hw v (List.mem_cons_of_mem _ hv)

/-- A cell no write addresses reads as before. -/
theorem writeAll_read_other (cfg : Config) (m : Memory) (ws : List (Int × Pattern)) (c : Nat)
    (h : ∀ w ∈ ws, cellOf cfg w.1 ≠ c) : (writeAll cfg m ws).read c = m.read c := by
  induction ws generalizing m with
  | nil => rfl
  | cons w ws ih =>
    have h1 := ih (m.write (cellOf cfg w.1) w.2) fun v hv => h v (List.mem_cons_of_mem _ hv)
    rw [Memory.read_write_other m w.2 (Ne.symm (h w List.mem_cons_self))] at h1
    exact h1

/-- A cell that one write addresses, and no later one, reads that write's pattern. -/
theorem writeAll_read_mem (cfg : Config) (m : Memory) (ws : List (Int × Pattern))
    (hn : (ws.map fun w => cellOf cfg w.1).Nodup) {w : Int × Pattern} (hw : w ∈ ws) :
    (writeAll cfg m ws).read (cellOf cfg w.1) = some w.2 := by
  induction ws generalizing m with
  | nil => cases hw
  | cons v ws ih =>
    obtain ⟨hv, hn⟩ := List.nodup_cons.mp hn
    rcases List.mem_cons.mp hw with rfl | hw
    · have := writeAll_read_other cfg (m.write (cellOf cfg w.1) w.2) ws (cellOf cfg w.1)
        fun u hu he => hv (List.mem_map.mpr ⟨u, hu, he⟩)
      exact this.trans (Memory.read_write_same _ _ _)
    · exact ih (m.write (cellOf cfg v.1) v.2) hn hw

/-- Written cells stay written. -/
theorem writeAll_isSome (cfg : Config) (m : Memory) (ws : List (Int × Pattern)) (c : Nat)
    (h : (m.read c).isSome = true ∨ ∃ w ∈ ws, cellOf cfg w.1 = c) : ((writeAll cfg m ws).read c).isSome = true := by
  induction ws generalizing m with
  | nil => exact h.elim id fun ⟨w, hw, _⟩ => absurd hw List.not_mem_nil
  | cons w ws ih =>
    refine ih (m.write (cellOf cfg w.1) w.2) ?_
    by_cases hc : c = cellOf cfg w.1
    · subst hc
      simp [Memory.read_write_same]
    · rw [Memory.read_write_other m w.2 hc]
      refine h.imp id fun ⟨v, hv, he⟩ => ⟨v, ?_, he⟩
      exact (List.mem_cons.mp hv).resolve_left fun e => hc (by rw [← he, e])

/-- The cells after the writes are what their frames, received one by one, make of DISP (R46). -/
theorem writeAll_received {cfg : Config} (hn : cfg.n ≤ 15) (m : Memory) (ws : List (Int × Pattern))
    (hw : ∀ w ∈ ws, inRange cfg w.1 = true) :
    (writeFrames cfg ws).foldl (receiveFrame cfg) m = writeAll cfg m ws := by
  induction ws generalizing m with
  | nil => rfl
  | cons w ws ih =>
    rw [writeFrames, List.map_cons, List.foldl_cons, receiveFrame_seg hn (hw w List.mem_cons_self)]
    exact ih _ fun v hv => hw v (List.mem_cons_of_mem _ hv)

/-! ## The writes of each operation are in range and to distinct cells -/

theorem mem_fillWrites {cfg : Config} {sym : BitVec 2} {pat : Pattern} {w : Int × Pattern}
    (h : w ∈ fillWrites cfg sym pat) : inRange cfg w.1 = true ∧ w.2 = transmitted cfg sym w.1 pat := by
  obtain ⟨pos, hp, rfl⟩ := List.mem_map.mp h
  exact ⟨allPositions_inRange hp, rfl⟩

theorem fillWrites_nodup (cfg : Config) (sym : BitVec 2) (pat : Pattern) :
    ((fillWrites cfg sym pat).map fun w => cellOf cfg w.1).Nodup := by
  rw [fillWrites, List.map_map]
  refine List.Nodup.map_on (fun x hx y hy h => ?_) (nodup_allPositions cfg)
  exact cellOf_injective (allPositions_inRange hx) (allPositions_inRange hy) h

theorem mem_textWrites {cfg : Config} {sym : BitVec 2} {text : List Byte} {pos : Int} {w : Int × Pattern}
    (h : w ∈ textWrites cfg sym pos text) :
    ∃ (i : Nat) (hi : i < text.length) (g : Pattern), w.1 = pos + i ∧ glyphOf cfg text[i] = some g ∧
      w.2 = transmitted cfg sym w.1 g := by
  induction text generalizing pos with
  | nil => cases h
  | cons ch text ih =>
    rcases List.mem_append.mp h with h | h
    · cases hg : glyphOf cfg ch with
      | none => simp [characterWrites, hg] at h
      | some g =>
        simp only [characterWrites, hg, Option.map_some, Option.toList_some, List.mem_singleton] at h
        subst h
        exact ⟨0, by simp, g, by simp, hg, rfl⟩
    · obtain ⟨i, hi, g, h1, h2, h3⟩ := ih h
      exact ⟨i + 1, by simpa using hi, g, by rw [h1]; push_cast; ring, by simpa using h2, h3⟩

theorem textWrites_mem {cfg : Config} {sym : BitVec 2} {text : List Byte} {i : Nat} {g : Pattern} (pos : Int)
    (hi : i < text.length) (hg : glyphOf cfg text[i] = some g) :
    (pos + i, transmitted cfg sym (pos + i) g) ∈ textWrites cfg sym pos text := by
  induction text generalizing pos i with
  | nil => cases hi
  | cons ch text ih =>
    cases i with
    | zero =>
      refine List.mem_append_left _ ?_
      have hg : glyphOf cfg ch = some g := hg
      simp [characterWrites, hg]
    | succ i =>
      refine List.mem_append_right _ ?_
      have := ih (pos + 1) (by simpa using hi) (by simpa using hg)
      have e : pos + 1 + (i : Int) = pos + ((i + 1 : Nat) : Int) := by push_cast; ring
      rwa [e] at this

theorem textWrites_positions_nodup (cfg : Config) (sym : BitVec 2) (text : List Byte) (pos : Int) :
    ((textWrites cfg sym pos text).map Prod.fst).Nodup := by
  induction text generalizing pos with
  | nil => exact List.nodup_nil
  | cons ch text ih =>
    rw [textWrites, List.map_append]
    refine List.Nodup.append ?_ (ih (pos + 1)) ?_
    · cases hg : glyphOf cfg ch <;> simp [characterWrites, hg]
    · intro x hx hy
      obtain ⟨w, hw, rfl⟩ := List.mem_map.mp hy
      obtain ⟨i, _, _, h1, _⟩ := mem_textWrites hw
      cases hg : glyphOf cfg ch with
      | none => simp [characterWrites, hg] at hx
      | some g =>
        simp only [characterWrites, hg, Option.map_some, Option.toList_some, List.map_cons, List.map_nil,
          List.mem_singleton] at hx
        omega

/-- The writes of SET_STRING are to positions 0..N-1. -/
theorem stringWrites_inRange {cfg : Config} {sym : BitVec 2} {text : List Byte} {w : Int × Pattern}
    (h : w ∈ textWrites cfg sym 0 (text.take cfg.n)) : inRange cfg w.1 = true := by
  obtain ⟨i, hi, _, h1, _⟩ := mem_textWrites h
  have : i < cfg.n := by
    rw [List.length_take] at hi
    omega
  exact (inRange_iff _ _).mpr (by omega)

theorem stringWrites_nodup (cfg : Config) (sym : BitVec 2) (text : List Byte) :
    ((textWrites cfg sym 0 (text.take cfg.n)).map fun w => cellOf cfg w.1).Nodup := by
  have h := textWrites_positions_nodup cfg sym (text.take cfg.n) 0
  have e : ((textWrites cfg sym 0 (text.take cfg.n)).map fun w => cellOf cfg w.1) =
      ((textWrites cfg sym 0 (text.take cfg.n)).map Prod.fst).map (cellOf cfg) := by rw [List.map_map]; rfl
  rw [e]
  refine List.Nodup.map_on (fun x hx y hy hxy => ?_) h
  obtain ⟨v, hv, rfl⟩ := List.mem_map.mp hx
  obtain ⟨u, hu, rfl⟩ := List.mem_map.mp hy
  exact cellOf_injective (stringWrites_inRange hv) (stringWrites_inRange hu) hxy

/-! ## The lists of frames the statements name -/

theorem writeFrames_fill (cfg : Config) (sym : BitVec 2) (pat : Pattern) :
    writeFrames cfg (fillWrites cfg sym pat) = fillFrames cfg sym pat := by
  rw [writeFrames, fillWrites, fillFrames, List.map_map]
  rfl

theorem writeFrames_text (cfg : Config) (sym : BitVec 2) (text : List Byte) (k : Nat) :
    writeFrames cfg (textWrites cfg sym k text) =
      (text.zipIdx k).filterMap fun x => (glyphOf cfg x.1).map fun g => segFrame cfg x.2 (transmitted cfg sym x.2 g) := by
  induction text generalizing k with
  | nil => rfl
  | cons ch text ih =>
    have e : ((k : Int) + 1) = ((k + 1 : Nat) : Int) := by push_cast; ring
    have ih := ih (k + 1)
    rw [textWrites, writeFrames, List.map_append, e]
    rw [writeFrames] at ih
    rw [ih, List.zipIdx_cons, List.filterMap_cons]
    cases hg : glyphOf cfg ch <;> simp [characterWrites, hg]

theorem writeFrames_string (cfg : Config) (sym : BitVec 2) (text : List Byte) :
    writeFrames cfg (textWrites cfg sym 0 (text.take cfg.n)) = stringFrames cfg sym text :=
  writeFrames_text cfg sym (text.take cfg.n) 0

end Sys2Proof.Machine
end

