-- ==== Sys2Proof/Laws/Exec.lean ====
section
/-! SUPPORT. What ENABLE does, and the inversion of `exec`: everything an operation that completes can have done. -/

namespace Sys2Proof.Machine

/-! ## The checks -/

theorem whenEnabled_next {s t : State} {r : Result} : whenEnabled s r = .next t ↔ s.mode = .enabled ∧ r = .next t := by
  unfold whenEnabled
  split <;> simp_all

theorem whenInRange_next {s t : State} {pos : Int} {r : Result} :
    whenInRange s pos r = .next t ↔ inRange s.cfg pos = true ∧ r = .next t := by
  unfold whenInRange
  split <;> simp_all

theorem whenOpen_next {s t : State} {r : Result} : whenOpen s r = .next t ↔ s.tx = .opened ∧ r = .next t := by
  unfold whenOpen
  split <;> simp_all

/-! ## ENABLE -/

/-- The events of ENABLE's pin set-up (R100). -/
def setupEvents : List Event :=
  [.pinMode .cs, .pinMode .wr, .pinMode .data, .drive .cs Level.high, .drive .wr Level.high,
    .drive .data Level.high, .hold .tSettle]

theorem pinSetup_fields (s : State) : (pinSetup s).cfg = s.cfg ∧ (pinSetup s).mode = s.mode ∧
    (pinSetup s).sym = s.sym ∧ (pinSetup s).port = s.port ∧ (pinSetup s).disp = s.disp ∧ (pinSetup s).tx = s.tx ∧
    (pinSetup s).dir = Lines.all .output ∧ (pinSetup s).level = Lines.all Level.high ∧
    (pinSetup s).trace = s.trace ++ setupEvents := by
  simp [pinSetup, setupEvents, Lines.all]

/-- After the set-up, whatever the trace was as long as no frame was open, the pins and the receiver are idle. -/
theorem setup_idle {es : List Event} (h : es = [] ∨ ∃ closed, Receiver.start.after es = Receiver.idle closed) :
    Pins.powerOn.after (es ++ setupEvents) = Pins.idle ∧
      Receiver.start.after (es ++ setupEvents) = Receiver.idle (Receiver.start.after es).closed := by
  constructor
  · rw [Pins.after_append]
    generalize Pins.powerOn.after es = p
    obtain ⟨⟨a, b, c⟩, ⟨x, y, z⟩⟩ := p
    rfl
  · rw [Receiver.after_append]
    rcases h with rfl | ⟨closed, h⟩
    · decide
    · rw [h]
      simp [Receiver.after, setupEvents, Receiver.event, Receiver.chipSelect, Receiver.writeClock, Lines.all]

/-- The frames ENABLE sends (R100). -/
def enableFrames (cfg : Config) (sym : BitVec 2) : List (List Bit) :=
  enableSysFrames cfg ++ fillFrames cfg sym 0x0000#16

/-- Everything ENABLE does (R100). -/
theorem enable_spec (s : State) :
    (enable s).cfg = s.cfg ∧ (enable s).sym = s.sym ∧ (enable s).port = s.port ∧ (enable s).mode = .enabled ∧
      (enable s).Idle ∧
      (enable s).trace = s.trace ++ setupEvents ++ (enableFrames s.cfg s.sym).flatMap frameEvents ∧
      (enable s).disp = writeAll s.cfg s.disp (fillWrites s.cfg s.sym 0x0000#16) := by
  obtain ⟨c0, -, y0, p0, d0, -, r0, -, t0⟩ := pinSetup_fields s
  unfold enable
  generalize pinSetup s = a at *
  have h1 := sysCmd_emits a.cfg.cmdSysEn a
  have d1 := sysCmd_disp a.cfg.cmdSysEn a
  simp only
  generalize sysCmd a.cfg.cmdSysEn a = b at *
  have h2 := sysCmd_emits b.cfg.cmdLcdOn b
  have d2 := sysCmd_disp b.cfg.cmdLcdOn b
  generalize sysCmd b.cfg.cmdLcdOn b = c at *
  have h3 := sysCmd_emits c.cfg.cmdBiasCom c
  have d3 := sysCmd_disp c.cfg.cmdBiasCom c
  generalize sysCmd c.cfg.cmdBiasCom c = d at *
  have h4 := fill_writes 0x0000#16 d
  have l4 := h4.lines (.inr (fillWrites_ne_nil _ _ _))
  generalize fill 0x0000#16 d = e at *
  have hb := h1.cfg.trans c0
  have hc := h2.cfg.trans hb
  have hd := h3.cfg.trans hc
  have yd : d.sym = s.sym := ((h3.sym.trans h2.sym).trans h1.sym).trans y0
  refine ⟨h4.emits.cfg.trans hd, h4.emits.sym.trans yd,
    (((h4.emits.port.trans h3.port).trans h2.port).trans h1.port).trans p0, trivial,
    ⟨l4.tx, (((h4.emits.dir.trans h3.dir).trans h2.dir).trans h1.dir).trans r0, l4.level⟩, ?_, ?_⟩
  · have ht : e.trace = s.trace ++ setupEvents ++ (enableFrames s.cfg s.sym).flatMap frameEvents := by
      rw [h4.emits.trace, h3.trace, h2.trace, h1.trace, t0, hd, hc, hb, c0, yd, writeFrames_fill]
      simp [enableFrames, enableSysFrames]
    exact ht
  · have hm : e.disp = writeAll s.cfg s.disp (fillWrites s.cfg s.sym 0x0000#16) := by
      rw [h4.disp, d3, d2, d1, d0, hd, yd]
    exact hm

/-- From a trace with no frame open ENABLE's frames are added, and the trace ends idle. -/
theorem enable_frames {s : State} (h : s.trace = [] ∨ s.TraceIdle) :
    (enable s).TraceIdle ∧ (enable s).frames = s.frames ++ enableFrames s.cfg s.sym := by
  have ht := (enable_spec s).2.2.2.2.2.1
  have hs := setup_idle (es := s.trace) (h.imp id fun hi => ⟨s.frames, hi.receiver⟩)
  rw [← State.frames_eq] at hs
  refine traceIdle_of ?_ ?_
  · rw [ht, Pins.after_append, hs.1, Pins.after_frames]
  · rw [ht, Receiver.after_append, hs.2, Receiver.after_frames]

/-! ## Inversion -/

/-- A host operation that completes is ENABLE, or, in the enabled mode, a list of segment writes in range, or a change of
SYM alone. -/
theorem exec_host_cases {i : Instr} {s t : State} (hi : i.hasCommandWord = true) (h : exec i s = .next t) :
    (i = .enable ∧ t = enable s) ∨
      (i ≠ .enable ∧ s.mode = .enabled ∧ ∃ ws, Writes s t ws ∧ ∀ w ∈ ws, inRange s.cfg w.1 = true) ∨
      (i ≠ .enable ∧ s.mode = .enabled ∧ ∃ v, t = { s with sym := v } ∧
        ((∃ m, i = .setSymbol m) ∨ ∃ m, i = .unsetSymbol m)) := by
  cases i with
  | enable => exact .inl ⟨rfl, (Host.Outcome.next.inj h).symm⟩
  | setSegments pos pat =>
    obtain ⟨hm, h⟩ := whenEnabled_next.mp h
    obtain ⟨hr, h⟩ := whenInRange_next.mp h
    obtain rfl := Host.Outcome.next.inj h
    exact .inr (.inl ⟨by simp, hm, _, setSegments_writes _ _ s, by simpa using hr⟩)
  | setCharacter pos ch =>
    obtain ⟨hm, h⟩ := whenEnabled_next.mp h
    obtain ⟨hr, h⟩ := whenInRange_next.mp h
    obtain rfl := Host.Outcome.next.inj h
    refine .inr (.inl ⟨by simp, hm, _, setCharacter_writes _ ch s, fun w hw => ?_⟩)
    obtain ⟨g, _, rfl⟩ : ∃ g, glyphOf s.cfg ch = some g ∧ (positionOf pos, transmitted s.cfg s.sym (positionOf pos) g) = w := by
      simpa [characterWrites] using hw
    exact hr
  | setString text =>
    obtain ⟨hm, h⟩ := whenEnabled_next.mp h
    obtain rfl := Host.Outcome.next.inj h
    exact .inr (.inl ⟨by simp, hm, _, setString_writes text s, fun w hw => stringWrites_inRange hw⟩)
  | clear =>
    obtain ⟨hm, h⟩ := whenEnabled_next.mp h
    obtain rfl := Host.Outcome.next.inj h
    exact .inr (.inl ⟨by simp, hm, _, fill_writes _ s, fun w hw => (mem_fillWrites hw).1⟩)
  | allOn =>
    obtain ⟨hm, h⟩ := whenEnabled_next.mp h
    obtain rfl := Host.Outcome.next.inj h
    exact .inr (.inl ⟨by simp, hm, _, fill_writes _ s, fun w hw => (mem_fillWrites hw).1⟩)
  | setSymbol mask =>
    obtain ⟨hm, h⟩ := whenEnabled_next.mp h
    obtain rfl := Host.Outcome.next.inj h
    exact .inr (.inr ⟨by simp, hm, _, rfl, .inl ⟨mask, rfl⟩⟩)
  | unsetSymbol mask =>
    obtain ⟨hm, h⟩ := whenEnabled_next.mp h
    obtain rfl := Host.Outcome.next.inj h
    exact .inr (.inr ⟨by simp, hm, _, rfl, .inr ⟨mask, rfl⟩⟩)
  | reservedOp low => cases h
  | _ => cases hi

/-- An internal operation that completes only appends events; it may also write a cell (SEG_WRITE). -/
theorem exec_internal_emits {i : Instr} {s t : State} (hi : i.hasCommandWord = false) (h : exec i s = .next t) :
    ∃ es, Emits s t es := by
  cases i with
  | sysCmd cmd =>
    obtain rfl := Host.Outcome.next.inj h
    exact ⟨_, sysCmd_emits cmd s⟩
  | sysCmdSysEn =>
    obtain rfl := Host.Outcome.next.inj h
    exact ⟨_, sysCmd_emits _ s⟩
  | sysCmdLcdOn =>
    obtain rfl := Host.Outcome.next.inj h
    exact ⟨_, sysCmd_emits _ s⟩
  | sysCmdBiasCom =>
    obtain rfl := Host.Outcome.next.inj h
    exact ⟨_, sysCmd_emits _ s⟩
  | segWrite pos p =>
    obtain ⟨_, h⟩ := whenInRange_next.mp h
    obtain rfl := Host.Outcome.next.inj h
    exact ⟨_, (segWrite_writes pos p s).emits⟩
  | encodeChar ch =>
    obtain rfl := Host.Outcome.next.inj h
    exact ⟨_, Emits.refl s⟩
  | startTx =>
    obtain rfl := Host.Outcome.next.inj h
    exact ⟨_, startTx_emits s⟩
  | sendBits value n =>
    obtain ⟨_, h⟩ := whenOpen_next.mp h
    split at h
    · rename_i hn
      obtain rfl := Host.Outcome.next.inj h
      exact ⟨_, sendBits_emits value hn.2 s⟩
    · cases h
  | endTx =>
    obtain ⟨_, h⟩ := whenOpen_next.mp h
    obtain rfl := Host.Outcome.next.inj h
    exact ⟨_, endTx_emits s⟩
  | _ => cases hi

/-! ## The step -/

/-- A decoded operation has a command word: the port offers no internal operation (R112). -/
theorem decode_hasCommandWord {c : Command} {i : Instr} (h : decode c = .ok i) : i.hasCommandWord = true := by
  unfold decode withoutText at h
  repeat' split at h
  all_goals first
    | (cases h; rfl)
    | cases h

/-- A step that completes did nothing, or ran a host operation on the state with its command taken. -/
theorem step_cases {s t : State} (h : step s = .next t) :
    (s.port = [] ∧ t = s) ∨
      ∃ c rest i, s.port = c :: rest ∧ decode c = .ok i ∧ i.hasCommandWord = true ∧
        exec i { s with port := rest } = .next t := by
  unfold step fetch at h
  cases hp : s.port with
  | nil =>
    rw [hp] at h
    exact .inl ⟨rfl, (Host.Outcome.next.inj h).symm⟩
  | cons c rest =>
    rw [hp] at h
    cases hd : decode c with
    | ok i =>
      simp only [hd] at h
      exact .inr ⟨c, rest, i, rfl, hd, decode_hasCommandWord hd, h⟩
    | error e =>
      simp only [hd] at h
      cases h

/-- Taking a command off the port keeps a state good. -/
theorem Inv_withPort {s : State} (h : s.Inv) (rest : List Command) : ({ s with port := rest } : State).Inv :=
  ⟨h.build, h.cells, h.cellsInRange, h.txIdle, h.uninit,
    fun hm => ⟨⟨(h.enabled hm).1.tx, (h.enabled hm).1.dir, (h.enabled hm).1.level⟩,
      ⟨(h.enabled hm).2.1.pins, (h.enabled hm).2.1.noFrame⟩, (h.enabled hm).2.2⟩⟩

end Sys2Proof.Machine
end

