-- ==== Sys2Proof/Laws/Held.lean ====
section
/-! SUPPORT. How many events a frame has, how many of them are holds, and how long they are held (R96, R156). -/

namespace Sys2Proof.Machine

theorem heldTime_append (cfg : Config) (es fs : List Event) :
    heldTime cfg (es ++ fs) = heldTime cfg es + heldTime cfg fs := by
  simp [heldTime]

/-- A frame of k bits has 3k + 2 holds, all of T_BIT, among its 6k + 8 events. -/
theorem frameEvents_counts (bits : List Bit) :
    ((frameEvents bits).countP fun e => decide (e = .hold .tBit)) = 3 * bits.length + 2 ∧
      ((frameEvents bits).countP fun e => decide (e = .hold .tSettle)) = 0 ∧
      (frameEvents bits).length = 6 * bits.length + 8 := by
  have h : ((bits.flatMap bitEvents).countP fun e => decide (e = .hold .tBit)) = 3 * bits.length ∧
      ((bits.flatMap bitEvents).countP fun e => decide (e = .hold .tSettle)) = 0 ∧
      (bits.flatMap bitEvents).length = 6 * bits.length := by
    induction bits with
    | nil => simp
    | cons b bs ih =>
      rw [List.flatMap_cons, List.countP_append, List.countP_append, List.length_append, ih.1, ih.2.1, ih.2.2]
      simp [bitEvents]
      omega
  simp only [frameEvents, List.countP_append, List.length_append, h]
  simp [startEvents, endEvents]
  omega

theorem heldTime_bitEvents (cfg : Config) (bits : List Bit) :
    heldTime cfg (bits.flatMap bitEvents) = 3 * bits.length * cfg.tBit := by
  induction bits with
  | nil => simp [heldTime]
  | cons b bs ih =>
    rw [List.flatMap_cons, heldTime_append, ih]
    simp [heldTime, bitEvents, Delay.duration]
    ring

theorem heldTime_frameEvents (cfg : Config) (bits : List Bit) :
    heldTime cfg (frameEvents bits) = (3 * bits.length + 2) * cfg.tBit := by
  rw [frameEvents, heldTime_append, heldTime_append, heldTime_bitEvents]
  simp [heldTime, startEvents, endEvents, Delay.duration]
  ring

end Sys2Proof.Machine
end

