-- ==== Sys2Proof/Laws/PerInstr.lean ====
section
/-! SUPPORT. A family stated for every operation: which operations have a command word, and its code and reserved field. -/

namespace Sys2Proof.Laws.OperationCode

/-- The host operations, and they alone, have a command word; its reserved field is 0 and its code below 8, but for a
reserved code (R60, R61, R62). -/
def Statement (i : Instr) : Prop :=
  (encode i).isSome = i.hasCommandWord ∧ ∀ c, encode i = some c →
    (Machine.isReserved i = false → c.op.toNat < 8 ∧ c.rsv = 0#4) ∧ (Machine.isReserved i = true → 8 ≤ c.op.toNat)

/-- A packed word with a code below 8. -/
theorem packed {i : Instr} {op : BitVec 4} {a : BitVec 8} {b : BitVec 16} {text : List Byte}
    (he : encode i = some ⟨packWord op a b, text⟩) (hi : i.hasCommandWord = true) (hr : Machine.isReserved i = false)
    (ho : op.toNat < 8) : Statement i := by
  refine ⟨by rw [he, hi]; rfl, fun c hc => ?_⟩
  obtain rfl := Option.some.inj (he.symm.trans hc)
  refine ⟨fun _ => ⟨?_, Command.rsv_pack op a b text⟩, fun h => by rw [hr] at h; cases h⟩
  rw [Command.op_pack]
  exact ho

/-- An internal operation has no word. -/
theorem internal {i : Instr} (he : encode i = none) (hi : i.hasCommandWord = false) : Statement i :=
  ⟨by rw [he, hi]; rfl, fun c hc => by rw [he] at hc; cases hc⟩

theorem enable : Statement .enable := packed rfl rfl rfl (by decide)
theorem setSegments (pos : BitVec 8) (pat : Pattern) : Statement (.setSegments pos pat) := packed rfl rfl rfl (by decide)
theorem setCharacter (pos : BitVec 8) (ch : Byte) : Statement (.setCharacter pos ch) := packed rfl rfl rfl (by decide)
theorem setString (text : List Byte) : Statement (.setString text) := packed rfl rfl rfl (by decide)
theorem clear : Statement .clear := packed rfl rfl rfl (by decide)
theorem allOn : Statement .allOn := packed rfl rfl rfl (by decide)
theorem setSymbol (mask : BitVec 2) : Statement (.setSymbol mask) := packed rfl rfl rfl (by decide)
theorem unsetSymbol (mask : BitVec 2) : Statement (.unsetSymbol mask) := packed rfl rfl rfl (by decide)

theorem reservedOp (low : BitVec 31) : Statement (.reservedOp low) := by
  refine ⟨rfl, fun c hc => ⟨fun h => (Bool.noConfusion h), fun _ => ?_⟩⟩
  obtain rfl := Option.some.inj hc
  exact (Command.msb_iff _).mp (reserved_word low).1

theorem sysCmd (cmd : Byte) : Statement (.sysCmd cmd) := internal rfl rfl
theorem sysCmdSysEn : Statement .sysCmdSysEn := internal rfl rfl
theorem sysCmdLcdOn : Statement .sysCmdLcdOn := internal rfl rfl
theorem sysCmdBiasCom : Statement .sysCmdBiasCom := internal rfl rfl
theorem segWrite (pos : Int) (p : Pattern) : Statement (.segWrite pos p) := internal rfl rfl
theorem encodeChar (ch : Byte) : Statement (.encodeChar ch) := internal rfl rfl
theorem startTx : Statement .startTx := internal rfl rfl
theorem sendBits (value : Byte) (n : Nat) : Statement (.sendBits value n) := internal rfl rfl
theorem endTx : Statement .endTx := internal rfl rfl

end Sys2Proof.Laws.OperationCode
end

