-- ==== Sys2Proof/Tests/Slice0.lean ====
section
/-! SUPPORT. The model's own tests. Words, frames and patterns are those of spec 95_test_vectors.md (its section is named
at each test) or are written out from the encoding tables of 30_encoding.md. Theorems named meets_ show states and operands
that meet the hypotheses of the obligation of that name. -/

namespace Sys2Proof.Tests

open Sys2Proof.Machine

set_option maxRecDepth 100000
set_option Elab.async false

/-! ## Helpers -/

/-- The result is a next state with the given property. -/
def answers (r : Result) (p : State → Bool) : Bool :=
  match r with
  | .next s => p s
  | .fault _ => false
  | .refused _ => false

/-- The result is the given refusal. -/
def refusesWith (r : Result) (x : Refusal) : Bool :=
  match r with
  | .next _ => false
  | .fault _ => false
  | .refused y => decide (y = x)

/-- The result is the given fault. -/
def faultsWith (r : Result) (x : Fault) : Bool :=
  match r with
  | .next _ => false
  | .fault y => decide (y = x)
  | .refused _ => false

theorem exists_next {r : Result} (h : answers r (fun _ => true) = true) : ∃ t, r = .next t := by
  cases r with
  | next t => exact ⟨t, rfl⟩
  | fault f => cases h
  | refused f => cases h

/-- Reset under the fixture TF, with levels and transport registers chosen for the test. -/
def powerOn : State :=
  { State.reset with cfg := Config.fixture, level := Lines.all Level.low, shreg := 0x00#8, bitcnt := 0 }

/-- An enabled state under TF: idle lines that were only set up, and every cell blank. -/
def ready : State :=
  { powerOn with
    mode := .enabled, dir := Lines.all .output, level := Lines.all Level.high
    traceRev := [.hold .tSettle, .drive .data Level.high, .drive .wr Level.high, .drive .cs Level.high, .pinMode .data,
      .pinMode .wr, .pinMode .cs]
    disp := (List.range 8).map fun c => (c, 0x0000#16) }

/-- The enabled state with a bracket open. -/
def bracket : State := startTx ready

/-- The state with one command presented. -/
def State.presenting (s : State) (w : BitVec 32) (text : List Byte) : State := { s with port := [⟨w, text⟩] }

/-- The recovered frames as (number of bits, value). -/
def hexes (s : State) : List (Nat × Nat) := s.frames.map fun f => (f.length, ofBitsMsb f)

/-- DISP by cell index, 0 first. -/
def cells (s : State) : List (Option Pattern) := (List.range 8).map s.disp.read

/-! ## Well-formedness: each check refuses an ill-formed term -/

theorem test_wellFormed_text : (Instr.setString (List.replicate 256 0x41#8)).wellFormed = false ∧
    (Instr.setString (List.replicate 255 0x41#8)).wellFormed = true := by decide

theorem test_wellFormed_position : (Instr.segWrite (-2) 0).wellFormed = false ∧ (Instr.segWrite 15 0).wellFormed = false ∧
    (Instr.segWrite (-1) 0).wellFormed = true ∧ (Instr.segWrite 14 0).wellFormed = true := by decide

theorem test_wellFormed_bitCount : (Instr.sendBits 0 0).wellFormed = false ∧ (Instr.sendBits 0 9).wellFormed = false ∧
    (Instr.sendBits 0 1).wellFormed = true ∧ (Instr.sendBits 0 8).wellFormed = true := by decide

/-! ## Decoding -/

/-- R61: one word for each code, bits 31:28 first; sections 6 and 7. -/
theorem test_decode_words :
    decode ⟨0b0000_0000_00000000_0000000000000000#32, []⟩ = .ok .enable ∧
    decode ⟨0b0001_0000_11111110_0001001000110100#32, []⟩ = .ok (.setSegments 0xFE#8 0x1234#16) ∧
    decode ⟨0b0010_0000_00000011_0000000001111011#32, []⟩ = .ok (.setCharacter 0x03#8 0x7B#8) ∧
    decode ⟨0b0011_0000_00000010_0000000000000000#32, [0x48#8, 0x69#8]⟩ = .ok (.setString [0x48#8, 0x69#8]) ∧
    decode ⟨0b0100_0000_00000000_0000000000000000#32, []⟩ = .ok .clear ∧
    decode ⟨0b0101_0000_00000000_0000000000000000#32, []⟩ = .ok .allOn ∧
    decode ⟨0b0110_0000_00000000_0000000000000010#32, []⟩ = .ok (.setSymbol 0b10#2) ∧
    decode ⟨0b0111_0000_00000000_0000000000000001#32, []⟩ = .ok (.unsetSymbol 0b01#2) ∧
    decode ⟨0b1000_0000_00000000_0000000000000000#32, []⟩ = .ok (.reservedOp 0#31) ∧
    decode ⟨0b1111_0000_00000000_0000000000000001#32, []⟩ = .ok (.reservedOp 0x70000001#31) := by decide

/-- R62: what is malformed, by field. -/
theorem test_decode_malformed :
    decode ⟨0x01000000#32, []⟩ = .error .reservedField ∧ decode ⟨0x40010000#32, []⟩ = .error .fieldA ∧
    decode ⟨0x20000141#32, []⟩ = .error .fieldB ∧ decode ⟨0x60000004#32, []⟩ = .error .fieldB ∧
    decode ⟨0x30010001#32, [0x41#8]⟩ = .error .fieldB ∧ decode ⟨0x30020000#32, [0x41#8]⟩ = .error .textLength := by decide

/-- Table words: bits above the row's own are 0, and an internal row of fewer than 32 bits names no command. -/
theorem test_decodeTableWord : decodeTableWord 32 0x30000000 = some (.setString []) ∧
    decodeTableWord 48 0x414230020000 = some (.setString [0x42#8, 0x41#8]) ∧
    decodeTableWord 32 0x30020000 = some (.setString [0x00#8, 0x00#8]) ∧ decodeTableWord 16 0x4000 = none := by decide

/-- R52, R53, sections 2 and 5: the frames of SYS(0x29) and of (position 0, 0x1234), bit by bit. -/
theorem test_frame_bits :
    sysFrame Config.fixture 0x29#8 = [true, false, false, false, false, true, false, true, false, false, true, false] ∧
    segFrame Config.fixture 0 0x1234#16 =
      [true, false, true, false, true, true, false, false, false, false, false, true, true, false, true, false, false,
        false, false, false, true, false, false, true, false] ∧
    decodeFrame Config.fixture (bitsMsb 0x852#12) = some (.sys 0x29#8) ∧
    decodeFrame Config.fixture (bitsMsb 0x1583412#25) = some (.seg 0b011000#6 0x1234#16) ∧
    decodeFrame Config.fixture (bitsMsb 0x853#12) = none := by decide

/-! ## ENCODE (section 3) -/

theorem test_encode_vectors :
    ([0x1F, 0x20, 0x2F, 0x32, 0x39, 0x3A, 0x3F, 0x40, 0x5A, 0x5B, 0x60, 0x61, 0x7A, 0x7B, 0xC1].map
      fun k => glyphOf Config.fixture (BitVec.ofNat 8 k)) =
    [none, some 0x2020#16, some 0x202F#16, some 0x2032#16, some 0x2039#16, none, none, some 0x2040#16, some 0x205A#16,
      none, none, some 0x2041#16, some 0x205A#16, none, none] := by decide

theorem test_encode_slanted :
    ([0x31, 0x32, 0x33, 0x34].map fun k => glyphOf { Config.fixture with slanted := true } (BitVec.ofNat 8 k)) =
    [some 0x2031#16, some 0x3032#16, some 0x3033#16, some 0x2034#16] ∧
    answers (exec (.encodeChar 0x41#8) ready) (fun t => decide (t = ready)) = true := by decide +kernel

/-! ## Transport (section 4) -/

theorem test_startTx : answers (exec .startTx ready) (fun t =>
    decide (t.traceRev.take 4 = [.hold .tBit, .drive .data true, .drive .wr true, .drive .cs false] ∧
      t.tx = .opened)) = true := by decide

/-- 0xA0 in 3 bits is 101; only the top bits of a container are sent. -/
theorem test_sendBits : (List.map (fun x : Byte × Nat => hexes (endTx (sendBits x.1 x.2 bracket)))
    [(0x7F#8, 1), (0xA0#8, 3), (0x60#8, 6), (0x01#8, 7), (0x55#8, 8)]) =
    [[(1, 0)], [(3, 5)], [(6, 0b011000)], [(7, 0)], [(8, 0x55)]] := by decide +kernel

/-- The shortest frame's waveform: CS down, WR down, WR up, CS up; with a last 0, DATA up follows. -/
theorem test_endTx :
    answers (exec .endTx (sendBits 0x80#8 1 bracket)) (fun t => decide (t.waveform.drop 6 =
      [.drive .cs false, .drive .wr false, .drive .wr true, .drive .cs true])) = true ∧
    answers (exec .endTx (sendBits 0x7F#8 1 bracket)) (fun t => decide (t.waveform.drop 6 =
      [.drive .cs false, .drive .wr false, .drive .data false, .drive .wr true, .drive .cs true,
        .drive .data true])) = true := by decide +kernel

/-! ## Protocol (section 5) -/

theorem test_sysCmd : answers (exec (.sysCmd 0x29#8) ready) (fun t =>
    decide (hexes t = [(12, 0x852)] ∧ t.waveform.length = 6 + 34)) = true := by decide +kernel

theorem test_sysCmdSysEn : answers (exec .sysCmdSysEn ready) (fun t => decide (hexes t = [(12, 0x802)])) = true := by
  decide +kernel

theorem test_sysCmdLcdOn : answers (exec .sysCmdLcdOn ready) (fun t => decide (hexes t = [(12, 0x806)])) = true := by
  decide +kernel

theorem test_sysCmdBiasCom : answers (exec .sysCmdBiasCom ready) (fun t => decide (hexes t = [(12, 0x852)])) = true := by
  decide +kernel

/-- Byte order on the wire, and the cell. -/
theorem test_segWrite : answers (exec (.segWrite 5 0x00FF#16) ready) (fun t =>
    decide (hexes t = [(25, 0x144FF00)] ∧ t.disp.read 1 = some 0x00FF#16 ∧ t.disp.read 0 = some 0x0000#16)) = true := by
  decide +kernel

/-- The last admissible N: the auxiliary position has address 60. -/
theorem test_segWrite_n15 :
    answers (exec (.segWrite (-1) 0x1234#16) { ready with cfg := { Config.fixture with n := 15 } }) (fun t =>
      decide (hexes t = [(25, 0x17C3412)] ∧ t.disp.read 15 = some 0x1234#16)) = true := by decide +kernel

/-! ## Driver (sections 2 and 6) -/

/-- S8. -/
theorem test_enable : answers (exec .enable powerOn) (fun t =>
    decide (hexes t = [(12, 0x802), (12, 0x806), (12, 0x852), (25, 0x15C0000), (25, 0x1580000), (25, 0x1540000),
      (25, 0x1500000), (25, 0x14C0000), (25, 0x1480000), (25, 0x1440000), (25, 0x1400000)] ∧
      t.waveform.length = 564)) = true := by decide +kernel

/-- S8: the raw counts, and the end state. -/
theorem test_enable_end : answers (exec .enable powerOn) (fun t =>
    decide (t.trace.length = 3 + 777 + 1 + 730 ∧ t.mode = .enabled ∧ t.sym = 0 ∧ t.tx = .idle ∧
      t.level = Lines.all true ∧ cells t = List.replicate 8 (some 0x0000#16))) = true := by decide +kernel

theorem test_setSegments_overlay : answers (exec (.setSegments 0x03#8 0x1234#16) { ready with sym := 0b11#2 }) (fun t =>
    decide (hexes t = [(25, 0x14CB492)] ∧ t.disp.read 3 = some 0x92B4#16)) = true := by decide +kernel

/-- The auxiliary position is 0xFF as an i8. -/
theorem test_setSegments_auxiliary : answers (exec (.setSegments 0xFF#8 0xFFFF#16) ready) (fun t =>
    decide (hexes t = [(25, 0x15CFFFF)])) = true := by decide +kernel

theorem test_setCharacter : answers (exec (.setCharacter 0x03#8 0x38#8) { ready with sym := 0b01#2 }) (fun t =>
    decide (hexes t = [(25, 0x14C38A0)])) = true := by decide +kernel

/-- S9: ':' has no glyph. -/
theorem test_setCharacter_unmapped : answers (exec (.setCharacter 0x00#8 0x3A#8) ready) (fun t => decide (t = ready)) =
    true := by decide +kernel

/-- "Hi:42": the colon keeps its place and its cell. -/
theorem test_setString : answers (exec (.setString [0x48#8, 0x69#8, 0x3A#8, 0x34#8, 0x32#8]) ready) (fun t =>
    decide (hexes t = [(25, 0x1584820), (25, 0x1544920), (25, 0x14C3420), (25, 0x1483220)] ∧
      t.disp.read 4 = some 0x0000#16)) = true := by decide +kernel

/-- "12345678": the eighth character is never examined. -/
theorem test_setString_truncates :
    answers (exec (.setString [0x31#8, 0x32#8, 0x33#8, 0x34#8, 0x35#8, 0x36#8, 0x37#8, 0x38#8]) ready) (fun t =>
      decide (hexes t = [(25, 0x1583120), (25, 0x1543220), (25, 0x1503320), (25, 0x14C3420), (25, 0x1483520),
        (25, 0x1443620), (25, 0x1403720)])) = true := by decide +kernel

theorem test_clear : answers (exec .clear { ready with sym := 0b11#2 }) (fun t =>
    decide (hexes t = [(25, 0x15C0000), (25, 0x1580000), (25, 0x1540000), (25, 0x1500000), (25, 0x14C8080),
      (25, 0x1480000), (25, 0x1440000), (25, 0x1400000)] ∧ t.disp.read 3 = some 0x8080#16)) = true := by decide +kernel

theorem test_allOn : answers (exec .allOn { ready with sym := 0b01#2 }) (fun t =>
    decide (hexes t = [(25, 0x15CFFFF), (25, 0x158FFFF), (25, 0x154FFFF), (25, 0x150FFFF), (25, 0x14CFFFF),
      (25, 0x148FFFF), (25, 0x144FFFF), (25, 0x140FFFF)] ∧ cells t = List.replicate 8 (some 0xFFFF#16))) = true := by
  decide +kernel

theorem test_setSymbol : answers (exec (.setSymbol 0b10#2) { ready with sym := 0b01#2 }) (fun t =>
    decide (t.sym = 0b11#2 ∧ t.frames = [])) = true := by decide +kernel

theorem test_unsetSymbol : answers (exec (.unsetSymbol 0b10#2) { ready with sym := 0b11#2 }) (fun t =>
    decide (t.sym = 0b01#2 ∧ t.frames = [])) = true := by decide +kernel

/-! ## Refusals (section 7) and the step -/

theorem test_notEnabled : [0x40000000#32, 0x60000001#32, 0x10000000#32, 0x10090000#32].all (fun w =>
    refusesWith (step (State.presenting powerOn w [])) .notEnabled) = true := by decide

theorem test_positionOutOfRange : [0x10071234#32, 0x10FE1234#32, 0x107F0001#32, 0x2007003A#32, 0x20800041#32].all (fun w =>
    refusesWith (step (State.presenting ready w [])) .positionOutOfRange) = true := by decide

theorem test_badCommandWord : [0x80000000#32, 0x90000000#32, 0x01000000#32, 0x40010000#32, 0x20000141#32,
    0x60000004#32].all (fun w => refusesWith (step (State.presenting powerOn w [])) .badCommandWord &&
      refusesWith (step (State.presenting ready w [])) .badCommandWord) = true := by decide

theorem test_reservedOp : refusesWith (exec (.reservedOp 0#31) ready) .badCommandWord = true := by decide

theorem test_step_takes_command : answers (step (State.presenting ready 0x60000003#32 [])) (fun t =>
    decide (t.sym = 0b11#2 ∧ t.port = [])) = true := by decide

/-- From reset itself, ENABLE is the operation that runs first. -/
theorem test_withFetchWord : answers (step (State.reset.withFetchWord 32 0x00000000)) (fun _ => true) = true ∧
    refusesWith (step (State.reset.withFetchWord 32 0x50000000)) .notEnabled = true := by decide

/-! ## Hypotheses that can be met -/

theorem ready_idle : ready.Idle := ⟨rfl, rfl, rfl⟩

theorem ready_traceIdle : ready.TraceIdle := ⟨by decide, by decide⟩

theorem ready_good : ready.Inv := by
  refine ⟨by decide, by decide, by decide, rfl, fun h => (by cases h), fun _ => ⟨ready_idle, ready_traceIdle, ?_⟩⟩
  have h : ∀ c ≤ 7, (ready.disp.read c).isSome = true := by decide
  exact h

theorem powerOn_good : powerOn.Inv :=
  ⟨by decide, by decide, by decide, rfl, fun _ => ⟨rfl, rfl, rfl, rfl⟩, fun h => by cases h⟩

theorem meets_StepRunsThePresentedOperation : (State.presenting ready 0x10FE1234#32 []).port = [⟨0x10FE1234#32, []⟩] ∧
    decode ⟨0x10FE1234#32, []⟩ = .ok (.setSegments 0xFE#8 0x1234#16) := by decide

theorem meets_StepWithoutCommandIdles : ready.port = [] := rfl

/-- One word or more for each clause. -/
theorem meets_StepRefusesMalformedWords :
    (8 ≤ (Command.op ⟨0x80000000#32, []⟩).toNat ∧ 8 ≤ (Command.op ⟨0xFF010001#32, []⟩).toNat) ∧
    (Command.rsv ⟨0x01000000#32, []⟩ ≠ 0#4 ∧ Command.rsv ⟨0x1F000000#32, []⟩ ≠ 0#4) ∧
    (Command.op ⟨0x00010000#32, []⟩ = 0x0#4 ∧ Command.a ⟨0x00010000#32, []⟩ ≠ 0#8) ∧
    (Command.op ⟨0x40000001#32, []⟩ = 0x4#4 ∧ Command.b ⟨0x40000001#32, []⟩ ≠ 0#16) ∧
    (Command.op ⟨0x50018000#32, []⟩ = 0x5#4 ∧ Command.a ⟨0x50018000#32, []⟩ ≠ 0#8) ∧
    (Command.op ⟨0x20000141#32, []⟩ = 0x2#4 ∧ (Command.b ⟨0x20000141#32, []⟩).extractLsb' 8 8 ≠ 0#8) ∧
    (Command.op ⟨0x30000001#32, []⟩ = 0x3#4 ∧ Command.b ⟨0x30000001#32, []⟩ ≠ 0#16) ∧
    (Command.op ⟨0x60000004#32, []⟩ = 0x6#4 ∧ (Command.b ⟨0x60000004#32, []⟩).extractLsb' 2 14 ≠ 0#14) ∧
    (Command.op ⟨0x70010000#32, []⟩ = 0x7#4 ∧ Command.a ⟨0x70010000#32, []⟩ ≠ 0#8) := by decide

theorem meets_DecodeInvertsEncode : (Instr.setString (List.replicate 255 0xFF#8)).wellFormed = true ∧
    (Instr.setString (List.replicate 255 0xFF#8)).hasCommandWord = true := by decide

theorem meets_EncodeInvertsDecode : decode ⟨0x70000003#32, []⟩ = .ok (.unsetSymbol 0b11#2) := by decide

theorem meets_WireFramesRoundTrip :
    decodeFrame Config.fixture (bitsMsb 0x852#12) = some (.sys 0x29#8) ∧
    decodeFrame Config.fixture (bitsMsb 0x1583412#25) = some (.seg 0b011000#6 0x1234#16) := by decide

theorem meets_PositionsMapInReverseOrder : 1 ≤ Config.fixture.n ∧ inRange Config.fixture (-1) = true ∧
    inRange Config.fixture 6 = true ∧ (-1 : Int) < 6 := by decide

theorem meets_AddressIsFourTimesTheCell : Config.fixture.Admissible ∧ inRange Config.fixture (-1) = true ∧
    inRange Config.fixture 6 = true ∧ addressField Config.fixture 6 = addressField Config.fixture 6 := by decide

/-- Each clause at both ends of its range. -/
theorem meets_EncodeReadsTheGlyphTables :
    ((0x20#8).toNat = 0x20 + (0 : Fin 26).val ∧ (0x39#8).toNat = 0x20 + (25 : Fin 26).val) ∧
    ((0x40#8).toNat = 0x40 + (0 : Fin 27).val ∧ (0x5A#8).toNat = 0x40 + (26 : Fin 27).val) ∧
    ((0x61#8).toNat = 0x61 + (0 : Fin 26).val ∧ (0x7A#8).toNat = 0x61 + (25 : Fin 26).val) ∧
    ∀ ch ∈ [0x00#8, 0x1F#8, 0x3A#8, 0x3F#8, 0x5B#8, 0x60#8, 0x7B#8, 0xFF#8], ch.toNat < 0x20 ∨
      (0x3A ≤ ch.toNat ∧ ch.toNat ≤ 0x3F) ∨ (0x5B ≤ ch.toNat ∧ ch.toNat ≤ 0x60) ∨ 0x7B ≤ ch.toNat := by decide

theorem meets_LowercaseLettersShareTheUppercaseGlyph : 0x61 ≤ (0x61#8).toNat ∧ (0x7A#8).toNat ≤ 0x7A := by decide

theorem meets_SlantedChangesOnlyTwoAndThree : (0x31#8 ≠ 0x32#8 ∧ 0x31#8 ≠ 0x33#8) ∧ (0x34#8 ≠ 0x32#8 ∧ 0x34#8 ≠ 0x33#8) ∧
    ∃ t, exec (.setCharacter 0x00#8 0x32#8) ready = .next t := ⟨by decide, by decide, _, rfl⟩

theorem meets_StartTxOpensTheBracket : ready.TraceIdle := ready_traceIdle

theorem meets_SendBitsClocksTheTopBits : bracket.tx = .opened ∧ (1 ≤ 1 ∧ 1 ≤ 8) ∧ (1 ≤ 8 ∧ 8 ≤ 8) := by decide

theorem meets_EndTxClosesTheBracket : bracket.tx = .opened := rfl

theorem meets_TransportStopsOutsideItsPreconditions : ready.tx = .idle ∧ bracket.tx = .opened ∧ 8 < 9 ∧
    faultsWith (exec (.sendBits 0x00#8 0) bracket) .bitCountOutOfRange = true ∧
    faultsWith (exec (.sendBits 0x00#8 9) bracket) .bitCountOutOfRange = true ∧
    faultsWith (exec (.sendBits 0x00#8 9) ready) .transportOutsideBracket = true := by decide

theorem meets_TransactionIsOneFrame : [(0x80#8, 1), (0x55#8, 8)] ≠ ([] : List (Byte × Nat)) ∧
    (∀ f ∈ [(0x80#8, 1), (0x55#8, 8)], 1 ≤ f.2 ∧ f.2 ≤ 8) ∧ ready.Idle ∧ ready.TraceIdle :=
  ⟨by decide, by decide, ready_idle, ready_traceIdle⟩

theorem meets_SysCmdSendsOneSysFrame : ready.TraceIdle := ready_traceIdle

theorem meets_NamedSystemCommandsSendTheirBytes : ready.TraceIdle := ready_traceIdle

theorem meets_SegWriteSendsOneSegFrame : inRange ready.cfg (-1) = true ∧ inRange ready.cfg 6 = true ∧ ready.TraceIdle ∧
    0 ≠ cellOf ready.cfg (-1) := ⟨by decide, by decide, ready_traceIdle, by decide⟩

theorem meets_FrameEventsAndCounts : inRange ready.cfg (-1) = true ∧ inRange ready.cfg 6 = true := by decide

/-- At the indicator position, at another, and at both ends of the range. -/
theorem meets_SetSegmentsSendsOneFrame : ready.mode = .enabled ∧ inRange ready.cfg (positionOf 0x03#8) = true ∧
    (0x03#8).toInt = ready.cfg.indicatorPos ∧ inRange ready.cfg (positionOf 0xFF#8) = true ∧
    (0xFF#8).toInt ≠ ready.cfg.indicatorPos ∧ inRange ready.cfg (positionOf 0x06#8) = true ∧ ready.TraceIdle :=
  ⟨rfl, by decide, by decide, by decide, by decide, by decide, ready_traceIdle⟩

theorem meets_SetCharacterWritesTheGlyph : ready.mode = .enabled ∧ inRange ready.cfg (positionOf 0xFF#8) = true ∧
    inRange ready.cfg (positionOf 0x06#8) = true ∧ glyphOf ready.cfg 0x61#8 = some 0x2041#16 ∧ ready.TraceIdle :=
  ⟨rfl, by decide, by decide, by decide, ready_traceIdle⟩

theorem meets_UnmappedCharacterIsASilentNoOp : ready.mode = .enabled ∧ inRange ready.cfg (positionOf 0x00#8) = true ∧
    glyphOf ready.cfg 0x3A#8 = none ∧ ∀ ch ∈ [0x3A#8, 0x7B#8].take ready.cfg.n, glyphOf ready.cfg ch = none := by decide

/-- "A:" writes its first character's cell and leaves its second character's. -/
theorem meets_SetStringWritesLeftToRight : ready.mode = .enabled ∧ ready.TraceIdle ∧ LinesHigh ready ∧
    0 < ready.cfg.n ∧ glyphOf ready.cfg 0x41#8 = some 0x2041#16 ∧
    ∀ (i : Nat) (hi : i < [0x41#8, 0x3A#8].length), i < ready.cfg.n →
      (glyphOf ready.cfg [0x41#8, 0x3A#8][i]).isSome = true → cellOf ready.cfg i ≠ 5 := by
  refine ⟨rfl, ready_traceIdle, ⟨rfl, rfl⟩, by decide, by decide, fun i hi _ hg => ?_⟩
  match i, hi, hg with
  | 0, _, _ => decide
  | 1, _, hg =>
    have h : glyphOf ready.cfg 0x3A#8 = none := by decide
    exact absurd hg (Bool.eq_false_iff.mp (congrArg Option.isSome h))

theorem meets_ClearRequestsZeroEverywhere : ready.mode = .enabled ∧ ready.TraceIdle ∧ inRange ready.cfg 3 = true ∧
    (3 : Int) = ready.cfg.indicatorPos ∧ inRange ready.cfg (-1) = true ∧ ready.cfg.n < 8 :=
  ⟨rfl, ready_traceIdle, by decide, by decide, by decide, by decide⟩

theorem meets_AllOnSetsEverySegment : ready.mode = .enabled ∧ ready.TraceIdle ∧ 7 ≤ ready.cfg.n ∧ ready.cfg.n < 8 :=
  ⟨rfl, ready_traceIdle, by decide, by decide⟩

theorem meets_EnableSendsTheFixedSequence : powerOn.trace = [] ∧ ready.TraceIdle ∧ inRange ready.cfg (-1) = true ∧
    ready.cfg.n < 8 := ⟨rfl, ready_traceIdle, by decide, by decide⟩

theorem meets_SetSymbolOrsTheMask : ready.mode = .enabled := rfl

theorem meets_UnsetSymbolClearsTheMask : ready.mode = .enabled := rfl

theorem meets_ColonShowsOnTheNextWrite : ∃ t u v w, ready.cfg.Admissible ∧
    positionOf 0x03#8 = ready.cfg.indicatorPos ∧ 0x1234#16 &&& ready.cfg.segColon = 0 ∧
    exec (.setSymbol 0b01#2) ready = .next t ∧ exec (.setSegments 0x03#8 0x1234#16) t = .next u ∧
    exec (.unsetSymbol 0b01#2) u = .next v ∧ exec (.setSegments 0x03#8 0x1234#16) v = .next w :=
  ⟨_, _, _, _, by decide, by decide, by decide, rfl, rfl, rfl, rfl⟩

/-- Each operation, and each writer of the indicator position; a flag set and a flag clear. -/
theorem meets_SymbolChangesShowOnTheNextWrite : ready.mode = .enabled ∧ ready.cfg.Admissible ∧
    (0b10#2 = ready.sym ||| 0b10#2 ∧ 0b00#2 = ready.sym &&& ~~~0b11#2) ∧
    ({ ready with sym := 0b10#2 } : State).cfg = ready.cfg ∧
    WritesIndicator ready.cfg (.setSegments 0x03#8 0x1234#16) 0x1234#16 ∧
    WritesIndicator ready.cfg (.setCharacter 0x03#8 0x38#8) 0x2038#16 ∧
    WritesIndicator ready.cfg (.setString [0x31#8, 0x32#8, 0x33#8, 0x34#8]) 0x2034#16 ∧
    WritesIndicator ready.cfg .enable 0x0000#16 ∧ WritesIndicator ready.cfg .clear 0x0000#16 ∧
    WritesIndicator ready.cfg .allOn 0xFFFF#16 ∧ (0b10#2).getLsbD 0 = false ∧ (0b10#2).getLsbD 1 = true ∧
    (0b01#2).getLsbD 0 = true ∧ (0b01#2).getLsbD 1 = false ∧ 0x1234#16 &&& ready.cfg.segColon = 0 ∧
    0x1234#16 &&& ready.cfg.segDot = 0 :=
  ⟨rfl, by decide, by decide, rfl, ⟨by decide, rfl⟩, ⟨by decide, by decide⟩,
    ⟨3, by decide, by decide, by decide, by decide⟩, rfl, rfl, rfl, by decide, by decide, by decide, by decide, by decide,
    by decide⟩

theorem meets_RepeatedClearRepeatsItsFrames : ∃ t u, ready.Inv ∧ exec .clear ready = .next t ∧
    exec .clear t = .next u := by
  refine ⟨fill 0x0000#16 ready, ?_⟩
  have h : answers (exec .clear (fill 0x0000#16 ready)) (fun _ => true) = true := by decide +kernel
  obtain ⟨u, hu⟩ := exists_next h
  exact ⟨u, ready_good, rfl, hu⟩

theorem meets_RepeatedEnableIsIdempotent : ∃ t u, powerOn.Inv ∧ exec .enable powerOn = .next t ∧
    exec .enable t = .next u := ⟨_, _, powerOn_good, rfl, rfl⟩

theorem meets_OnlyEnableRunsBeforeEnable : powerOn.mode = .uninit ∧ (Instr.setSymbol 0b01#2).hasCommandWord = true ∧
    Instr.setSymbol 0b01#2 ≠ .enable ∧ isReserved (.setSymbol 0b01#2) = false := by decide

theorem meets_PositionOutOfRangeIsRefused : ready.mode = .enabled ∧ (0xFE#8).toInt < -1 ∧
    (ready.cfg.n : Int) - 1 < (0x07#8).toInt ∧ (-2 : Int) < -1 ∧ (ready.cfg.n : Int) - 1 < 7 := by decide

theorem meets_HostOperationsCompleteExactlyWhenAdmitted : (Instr.setSegments 0x06#8 0x1234#16).hasCommandWord = true ∧
    isReserved (.setSegments 0x06#8 0x1234#16) = false ∧ ready.mode = .enabled ∧ inRange ready.cfg 6 = true := by decide

/-- ENABLE, and another operation. -/
theorem meets_OnlyEnableChangesMode : (∃ t, exec .enable powerOn = .next t) ∧
    ∃ t, exec (.setSymbol 0b01#2) ready = .next t ∧ Instr.setSymbol 0b01#2 ≠ .enable :=
  ⟨⟨_, rfl⟩, _, rfl, by decide⟩

theorem meets_OnlySymbolOperationsChangeSym : (∃ t, exec .enable powerOn = .next t) ∧ (∀ m, Instr.enable ≠ .setSymbol m) ∧
    ∀ m, Instr.enable ≠ .unsetSymbol m := ⟨⟨_, rfl⟩, by decide, by decide⟩

theorem meets_GlyphTablesAreImmutable : ∃ t, exec (.setCharacter 0x00#8 0x41#8) ready = .next t := ⟨_, rfl⟩

theorem meets_TraceOnlyGrows : ∃ t, exec (.setCharacter 0x00#8 0x41#8) ready = .next t := ⟨_, rfl⟩

theorem meets_StepKeepsInvariant : (∃ t, powerOn.Inv ∧ step powerOn = .next t) ∧
    ∃ t, (State.presenting ready 0x60000003#32 []).Inv ∧ step (State.presenting ready 0x60000003#32 []) = .next t := by
  refine ⟨⟨_, powerOn_good, rfl⟩, _, ?_, rfl⟩
  have h := ready_good
  exact ⟨h.build, h.cells, h.cellsInRange, h.txIdle, fun h => (by cases h), fun _ => ⟨⟨rfl, rfl, rfl⟩,
    ⟨ready_traceIdle.pins, ready_traceIdle.noFrame⟩, (h.enabled rfl).2.2⟩⟩

/-- The first step of a run that enables the display. -/
theorem meets_StepKeepsDispEqualToFrames : ∃ t, (State.presenting powerOn 0x00000000#32 []).Inv ∧
    (State.presenting powerOn 0x00000000#32 []).DispMatchesFrames ∧
    step (State.presenting powerOn 0x00000000#32 []) = .next t :=
  ⟨_, ⟨by decide, by decide, by decide, rfl, fun _ => ⟨rfl, rfl, rfl, rfl⟩, fun h => by cases h⟩, rfl, rfl⟩

theorem meets_StepSendsOnlyLegalFrames : ∃ t, (State.presenting powerOn 0x00000000#32 []).Inv ∧
    (∀ f ∈ (State.presenting powerOn 0x00000000#32 []).frames,
      LegalFrame (State.presenting powerOn 0x00000000#32 []).cfg f) ∧
    step (State.presenting powerOn 0x00000000#32 []) = .next t :=
  ⟨_, ⟨by decide, by decide, by decide, rfl, fun _ => ⟨rfl, rfl, rfl, rfl⟩, fun h => by cases h⟩,
    fun f hf => (by cases hf), rfl⟩

theorem meets_StepKeepsDataStable : ∃ t, (State.presenting powerOn 0x00000000#32 []).Inv ∧
    DataStable Receiver.start (State.presenting powerOn 0x00000000#32 []).waveform ∧
    step (State.presenting powerOn 0x00000000#32 []) = .next t :=
  ⟨_, ⟨by decide, by decide, by decide, rfl, fun _ => ⟨rfl, rfl, rfl, rfl⟩, fun h => by cases h⟩, trivial, rfl⟩

/-- A program of two operations; position -1 is in range of every build. -/
theorem meets_ProgramsThatEnableFirstComplete :
    (∀ i ∈ [Instr.setSymbol 0b01#2, .setSegments 0xFF#8 0x1234#16], Acceptable Config.device i) ∧
    [Instr.setSymbol 0b01#2, .setSegments 0xFF#8 0x1234#16].mapM encode =
      some [⟨0x60000001#32, []⟩, ⟨0x10FF1234#32, []⟩] := by
  refine ⟨fun i hi => ?_, by decide⟩
  have hn := Config.device_admissible.1
  rcases List.mem_cons.mp hi with rfl | hi
  · exact ⟨rfl, rfl, rfl, fun pos h => by cases h⟩
  · obtain rfl := List.mem_singleton.mp hi
    refine ⟨rfl, rfl, rfl, fun pos h => ?_⟩
    obtain rfl := Option.some.inj h
    have h1 : positionOf 0xFF#8 = -1 := by decide
    rw [h1]
    simp only [inRange, Bool.and_eq_true, decide_eq_true_eq]
    omega

end Sys2Proof.Tests
end

/-! The state of the framer: what each operation can change of MODE, SYM, the build, TRACE and the port; the invariant
between operations; and programs run from reset. -/

namespace Sys2Proof.Machine

/-! ## The step and the state after reset -/

/-- Settles O1: `fetch` hands over the head of the port, and the decoder's answer selects the operation. -/
theorem stepRunsThePresentedOperation : Obligations.StepRunsThePresentedOperation := by
  unfold Obligations.StepRunsThePresentedOperation
  intro s c rest i hp hd
  have hf : fetch s = some (c, { s with port := rest }) := by simp [fetch, hp]
  simp only [step, hf, hd]

/-- Settles O47: every clause is read off the fields of `State.reset`. -/
theorem resetState : Obligations.ResetState :=
  ⟨rfl, rfl, rfl, fun l => Lines.get_all _ l, rfl, fun _ => rfl, rfl, rfl, rfl⟩

theorem inv_reset : State.reset.Inv where
  build := Config.device_admissible
  cells := List.Pairwise.nil
  cellsInRange := fun _ he => absurd he List.not_mem_nil
  txIdle := rfl
  uninit := fun _ => ⟨rfl, rfl, rfl, rfl⟩
  enabled := fun h => nomatch h

/-- Settles O48: nothing has been sent at reset, so the clauses on frames and waveform speak of empty lists. -/
theorem resetIsGood : Obligations.ResetIsGood :=
  ⟨inv_reset, rfl, fun _ hf => absurd hf List.not_mem_nil, trivial⟩

/-! ## The flags -/

theorem getLsbD_symWith (sym mask : BitVec 2) (k : Nat) :
    (symWith sym mask).getLsbD k = (sym.getLsbD k || mask.getLsbD k) :=
  BitVec.getLsbD_or

theorem getLsbD_symWithout (sym mask : BitVec 2) {k : Nat} (hk : k < 2) :
    (symWithout sym mask).getLsbD k = (sym.getLsbD k && !mask.getLsbD k) := by
  rw [symWithout, BitVec.getLsbD_and, BitVec.getLsbD_not, decide_eq_true hk, Bool.true_and]

/-- Settles O15: the overlay case by case, and the flags bit by bit. -/
theorem overlayOfTheTwoFlags : Obligations.OverlayOfTheTwoFlags := by
  unfold Obligations.OverlayOfTheTwoFlags
  intro cfg sym
  refine ⟨?_, ?_, ?_, ?_, ?_, ?_, ?_, ?_⟩
  · simp [overlay]
  · simp [overlay]
  · simp [overlay]
  · simp [overlay]
  · simp only [getLsbD_symWith, BitVec.reduceGetLsb, Bool.or_false]
  · simp only [getLsbD_symWith, BitVec.reduceGetLsb, Bool.or_false]
  · simp only [getLsbD_symWithout, BitVec.reduceGetLsb, Nat.reduceLT, Bool.not_false, Bool.and_true]
  · simp only [getLsbD_symWithout, BitVec.reduceGetLsb, Nat.reduceLT, Bool.not_false, Bool.and_true]

/-! ## What each operation can change -/

/-- An operation that completes is ENABLE, or only appends events (and may write cells), or changes SYM alone. -/
theorem exec_cases {i : Instr} {s t : State} (h : exec i s = .next t) :
    (i = .enable ∧ t = enable s) ∨
      (i ≠ .enable ∧ ∃ es, Emits s t es) ∨
      (i ≠ .enable ∧ (∃ v, t = { s with sym := v }) ∧ ((∃ m, i = .setSymbol m) ∨ ∃ m, i = .unsetSymbol m)) := by
  cases hi : i.hasCommandWord with
  | true =>
    obtain h | ⟨hne, -, ws, hw, -⟩ | ⟨hne, -, v, ht, hsym⟩ := exec_host_cases hi h
    · exact .inl h
    · exact .inr (.inl ⟨hne, _, hw.emits⟩)
    · exact .inr (.inr ⟨hne, ⟨v, ht⟩, hsym⟩)
  | false =>
    refine .inr (.inl ⟨?_, exec_internal_emits hi h⟩)
    rintro rfl
    cases hi

theorem exec_mode {i : Instr} {s t : State} (h : exec i s = .next t) :
    (i = .enable → t.mode = .enabled) ∧ (i ≠ .enable → t.mode = s.mode) := by
  obtain ⟨rfl, rfl⟩ | ⟨hne, es, he⟩ | ⟨hne, ⟨v, rfl⟩, -⟩ := exec_cases h
  · obtain ⟨-, -, -, hmode, -⟩ := enable_spec s
    exact ⟨fun _ => hmode, fun hne => absurd rfl hne⟩
  · exact ⟨fun heq => absurd heq hne, fun _ => he.mode⟩
  · exact ⟨fun heq => absurd heq hne, fun _ => rfl⟩

theorem exec_cfg {i : Instr} {s t : State} (h : exec i s = .next t) : t.cfg = s.cfg := by
  obtain ⟨-, rfl⟩ | ⟨-, es, he⟩ | ⟨-, ⟨v, rfl⟩, -⟩ := exec_cases h
  · exact (enable_spec s).1
  · exact he.cfg
  · rfl

theorem exec_port {i : Instr} {s t : State} (h : exec i s = .next t) : t.port = s.port := by
  obtain ⟨-, rfl⟩ | ⟨-, es, he⟩ | ⟨-, ⟨v, rfl⟩, -⟩ := exec_cases h
  · obtain ⟨-, -, hport, -⟩ := enable_spec s
    exact hport
  · exact he.port
  · rfl

theorem exec_trace_grows {i : Instr} {s t : State} (h : exec i s = .next t) : s.trace <+: t.trace := by
  obtain ⟨-, rfl⟩ | ⟨-, es, he⟩ | ⟨-, ⟨v, rfl⟩, -⟩ := exec_cases h
  · obtain ⟨-, -, -, -, -, htrace, -⟩ := enable_spec s
    exact ⟨_, by rw [htrace, List.append_assoc]⟩
  · exact he.onlySends.trace
  · exact ⟨[], List.append_nil _⟩

/-- Settles O43, from the inversion of `exec`. -/
theorem onlyEnableChangesMode : Obligations.OnlyEnableChangesMode :=
  ⟨rfl, fun _ _ _ h => exec_mode h⟩

/-- Settles O44: of the three shapes a completed operation can have, the one that writes SYM is excluded. -/
theorem onlySymbolOperationsChangeSym : Obligations.OnlySymbolOperationsChangeSym := by
  unfold Obligations.OnlySymbolOperationsChangeSym
  intro i s t h hset hunset
  obtain ⟨-, rfl⟩ | ⟨-, es, he⟩ | ⟨-, -, ⟨m, hm⟩ | ⟨m, hm⟩⟩ := exec_cases h
  · obtain ⟨-, hsym, -⟩ := enable_spec s
    exact hsym
  · exact he.sym
  · exact absurd hm (hset m)
  · exact absurd hm (hunset m)

/-- Settles O46, from the inversion of `exec`. -/
theorem traceOnlyGrows : Obligations.TraceOnlyGrows :=
  fun _ _ _ h => ⟨exec_trace_grows h, exec_port h⟩

/-- Settles O53: the receiver passes over every event the waveform deletes. -/
theorem waveformLosesNoFrame : Obligations.WaveformLosesNoFrame :=
  fun trace => congrArg Receiver.closed (Receiver.after_waveform trace)

/-! ## The invariant between operations -/

/-- An operation that ends enabled and idle after segment writes in range keeps the invariant, if every cell has been
written before or is written by it. -/
theorem inv_of_writeAll {s t : State} {ws : List (Int × Pattern)} (hs : s.Inv) (hcfg : t.cfg = s.cfg)
    (hmode : t.mode = .enabled) (hidle : t.Idle) (htrace : t.TraceIdle) (hdisp : t.disp = writeAll s.cfg s.disp ws)
    (hrange : ∀ w ∈ ws, inRange s.cfg w.1 = true)
    (hwritten : ∀ c ≤ s.cfg.n, (s.disp.read c).isSome = true ∨ ∃ w ∈ ws, cellOf s.cfg w.1 = c) : t.Inv where
  build := hcfg ▸ hs.build
  cells := hdisp ▸ writeAll_wf s.cfg hs.cells ws
  cellsInRange := by
    rw [hdisp, hcfg]
    exact writeAll_bounded s.cfg hs.cellsInRange ws hrange
  txIdle := hidle.tx
  uninit := fun h => by rw [hmode] at h; cases h
  enabled := fun _ => by
    refine ⟨hidle, htrace, fun c hc => ?_⟩
    rw [hdisp]
    exact writeAll_isSome s.cfg s.disp ws c (hwritten c (hcfg ▸ hc))

/-- A full clear or fill writes every cell 0..N (R105, R106). -/
theorem exists_fillWrite (cfg : Config) (sym : BitVec 2) (pat : Pattern) {c : Nat} (hc : c ≤ cfg.n) :
    ∃ w ∈ fillWrites cfg sym pat, cellOf cfg w.1 = c := by
  obtain ⟨pos, hpos, hcell⟩ := exists_position hc
  exact ⟨_, List.mem_map.mpr ⟨pos, mem_allPositions hpos, rfl⟩, hcell⟩

/-- In a good state no frame is open: nothing has happened yet, or the lines are idle. -/
theorem State.Inv.trace_nil_or_idle {s : State} (h : s.Inv) : s.trace = [] ∨ s.TraceIdle := by
  cases hm : s.mode with
  | uninit =>
    obtain ⟨-, -, htrace, -⟩ := h.uninit hm
    exact .inl htrace
  | enabled =>
    obtain ⟨-, htrace, -⟩ := h.enabled hm
    exact .inr htrace

theorem inv_enable {s : State} (h : s.Inv) : (enable s).Inv := by
  obtain ⟨hcfg, -, -, hmode, hidle, -, hdisp⟩ := enable_spec s
  obtain ⟨htrace, -⟩ := enable_frames h.trace_nil_or_idle
  exact inv_of_writeAll h hcfg hmode hidle htrace hdisp (fun _ hw => (mem_fillWrites hw).1)
    fun c hc => .inr (exists_fillWrite _ _ _ hc)

theorem inv_of_writes {s t : State} {ws : List (Int × Pattern)} (h : s.Inv) (hm : s.mode = .enabled)
    (hw : Writes s t ws) (hrange : ∀ w ∈ ws, inRange s.cfg w.1 = true) : t.Inv := by
  obtain ⟨hidle, htrace, hcells⟩ := h.enabled hm
  have hidle' : t.Idle := idle_of hidle hw.emits.dir (hw.lines (.inl ⟨hidle.tx, hidle.level⟩))
  exact inv_of_writeAll h hw.emits.cfg (hw.emits.mode.trans hm) hidle' (hw.emits.frames htrace).1 hw.disp hrange
    fun c hc => .inl (hcells c hc)

/-- Once enabled, the invariant says nothing of SYM. -/
theorem inv_withSym {s : State} (h : s.Inv) (hm : s.mode = .enabled) (v : BitVec 2) :
    ({ s with sym := v } : State).Inv := by
  obtain ⟨⟨htx, hdir, hlevel⟩, ⟨hpins, hframe⟩, hcells⟩ := h.enabled hm
  exact inv_of_writeAll (ws := []) h rfl hm ⟨htx, hdir, hlevel⟩ ⟨hpins, hframe⟩ rfl
    (fun _ hw => absurd hw List.not_mem_nil) fun c hc => .inl (hcells c hc)

/-- Every host operation that completes keeps the invariant. -/
theorem inv_exec {i : Instr} {s t : State} (hi : i.hasCommandWord = true) (hs : s.Inv) (h : exec i s = .next t) :
    t.Inv := by
  obtain ⟨-, rfl⟩ | ⟨-, hm, ws, hw, hrange⟩ | ⟨-, hm, v, rfl, -⟩ := exec_host_cases hi h
  · exact inv_enable hs
  · exact inv_of_writes hs hm hw hrange
  · exact inv_withSym hs hm v

/-- Settles O49: a step is idle or a host operation, and each of the three shapes of a host operation keeps `Inv`. -/
theorem stepKeepsInvariant : Obligations.StepKeepsInvariant := by
  unfold Obligations.StepKeepsInvariant
  intro s t hs h
  obtain ⟨-, rfl⟩ | ⟨c, rest, i, -, -, hi, he⟩ := step_cases h
  · exact hs
  · exact inv_exec hi (Inv_withPort hs rest) he

/-! ## Programs -/

/-- A character in field B of a command word, with 0 above it (R61). -/
theorem charField_bits (ch : Byte) :
    (0#8 ++ ch : BitVec 16).extractLsb' 8 8 = 0#8 ∧ (0#8 ++ ch : BitVec 16).extractLsb' 0 8 = ch :=
  ⟨extract_high 0#8 ch, extract_low 0#8 ch⟩

/-- A mask in field B of a command word, with 0 above it (R61). -/
theorem maskField_bits (mask : BitVec 2) :
    (0#14 ++ mask : BitVec 16).extractLsb' 2 14 = 0#14 ∧ (0#14 ++ mask : BitVec 16).extractLsb' 0 2 = mask :=
  ⟨extract_high 0#14 mask, extract_low 0#14 mask⟩

/-- The decoder reads the command of a well-formed operation as that operation (R61). -/
theorem decode_encode {i : Instr} {c : Command} (hw : i.wellFormed = true) (hc : encode i = some c) :
    decode c = .ok i := by
  cases i with
  | reservedOp low =>
    obtain rfl := Option.some.inj hc
    obtain ⟨hmsb, hlow⟩ := reserved_word low
    simp [decode, withoutText, hmsb, hlow]
  | setString text =>
    obtain rfl := Option.some.inj hc
    have hlen : text.length % 256 = text.length :=
      Nat.mod_eq_of_lt (by simpa [Instr.wellFormed, Nat.lt_succ_iff] using hw)
    simp [decode, Command.msb_pack, Command.rsv_pack, Command.op_pack, Command.a_pack, Command.b_pack, hlen]
  | enable | clear | allOn | setSegments | setCharacter | setSymbol | unsetSymbol =>
    obtain rfl := Option.some.inj hc
    simp [decode, withoutText, Command.msb_pack, Command.rsv_pack, Command.op_pack, Command.a_pack, Command.b_pack,
      charField_bits, maskField_bits]
  | _ => cases hc

/-- An operation the build accepts completes, once the framer is enabled or if it is ENABLE itself. -/
theorem exec_acceptable {i : Instr} {s : State} (ha : Acceptable s.cfg i) (hm : s.mode = .enabled ∨ i = .enable) :
    ∃ t, exec i s = .next t := by
  cases i with
  | enable => exact ⟨_, rfl⟩
  | setSegments pos pat =>
    exact ⟨_, whenEnabled_next.mpr ⟨hm.resolve_right nofun, whenInRange_next.mpr ⟨ha.inRange _ rfl, rfl⟩⟩⟩
  | setCharacter pos ch =>
    exact ⟨_, whenEnabled_next.mpr ⟨hm.resolve_right nofun, whenInRange_next.mpr ⟨ha.inRange _ rfl, rfl⟩⟩⟩
  | setString | clear | allOn | setSymbol | unsetSymbol =>
    exact ⟨_, whenEnabled_next.mpr ⟨hm.resolve_right nofun, rfl⟩⟩
  | reservedOp low => cases ha.defined
  | _ => cases ha.host

/-- One step of a program: the presented operation completes and is taken off the port. -/
theorem step_acceptable {s : State} {i : Instr} {c : Command} {rest : List Command} (hs : s.Inv)
    (hm : s.mode = .enabled ∨ i = .enable) (ha : Acceptable s.cfg i) (hc : encode i = some c)
    (hp : s.port = c :: rest) :
    ∃ u, step s = .next u ∧ u.Inv ∧ u.mode = .enabled ∧ u.cfg = s.cfg ∧ u.port = rest := by
  have hstep := stepRunsThePresentedOperation s c rest i hp (decode_encode ha.wellFormed hc)
  obtain ⟨u, hu⟩ := exec_acceptable (s := { s with port := rest }) ha hm
  have hmode : u.mode = .enabled := by
    obtain ⟨henable, hother⟩ := exec_mode hu
    by_cases hi : i = .enable
    · exact henable hi
    · exact (hother hi).trans (hm.resolve_right hi)
  exact ⟨u, hstep.trans hu, inv_exec ha.host (Inv_withPort hs rest) hu, hmode, (exec_cfg hu :), (exec_port hu :)⟩

theorem runsSafely_zero (s : State) : RunsSafely 0 s s := rfl

theorem RunsSafely.cons {k : Nat} {s u t : State} (h : step s = .next u) (hr : RunsSafely k u t) :
    RunsSafely (k + 1) s t := by
  unfold RunsSafely at *
  rw [Host.Core.run]
  simp only [h, hr]

/-- From a good enabled state every list of acceptable operations runs to its end. -/
theorem runsSafely_acceptable (is : List Instr) {cs : List Command} {s : State} (hs : s.Inv) (hm : s.mode = .enabled)
    (ha : ∀ i ∈ is, Acceptable s.cfg i) (hcs : is.mapM encode = some cs) (hp : s.port = cs) :
    ∃ t, RunsSafely cs.length s t ∧ t.Inv ∧ t.mode = .enabled ∧ t.port = [] := by
  induction is generalizing cs s with
  | nil =>
    obtain rfl : [] = cs := by simpa using hcs
    exact ⟨s, runsSafely_zero s, hs, hm, hp⟩
  | cons i is ih =>
    obtain ⟨c, hc, rest, hrest, rfl⟩ :
        ∃ c, encode i = some c ∧ ∃ rest, is.mapM encode = some rest ∧ c :: rest = cs := by
      simpa [List.mapM_cons, Option.bind_eq_some_iff] using hcs
    obtain ⟨u, hstep, hu, hmu, hcfg, hport⟩ := step_acceptable hs (.inl hm) (ha i List.mem_cons_self) hc hp
    have ha' : ∀ j ∈ is, Acceptable u.cfg j := fun j hj => hcfg ▸ ha j (List.mem_cons_of_mem _ hj)
    obtain ⟨t, hrun, ht⟩ := ih hu hmu ha' hrest hport
    exact ⟨t, hrun.cons hstep, ht⟩

/-- ENABLE is acceptable to every build. -/
theorem acceptable_enable (cfg : Config) : Acceptable cfg .enable := ⟨rfl, rfl, rfl, nofun⟩

/-- Settles O54: ENABLE leads from reset to a good enabled state, and the rest runs by induction on the program. -/
theorem programsThatEnableFirstComplete : Obligations.ProgramsThatEnableFirstComplete := by
  unfold Obligations.ProgramsThatEnableFirstComplete
  intro is cs ha hcs
  have hword : encode .enable = some ⟨0x00000000#32, []⟩ := by decide
  obtain ⟨u, hstep, hu, hmu, hcfg, hport⟩ :=
    step_acceptable (s := { State.reset with port := ⟨0x00000000#32, []⟩ :: cs }) (Inv_withPort inv_reset _) (.inr rfl)
      (acceptable_enable _) hword rfl
  have ha' : ∀ i ∈ is, Acceptable u.cfg i := fun i hi => hcfg ▸ ha i hi
  obtain ⟨t, hrun, ht, hmt, hpt⟩ := runsSafely_acceptable is hu hmu ha' hcs hport
  exact ⟨t, hrun.cons hstep, hmt, (ht.enabled hmt).1, hpt⟩

end Sys2Proof.Machine

/-! The cell space and the frames that write it: positions, cells and addresses; the bits and the number of each frame;
the glyph tables; and DISP as the frames on the wire leave it. -/

namespace Sys2Proof.Machine

/-! ## Positions, cells, addresses -/

/-- The larger of two positions is at the smaller cell (R42). -/
theorem cellOf_lt_cellOf {cfg : Config} {x y : Int} (hx : inRange cfg x = true) (hy : inRange cfg y = true)
    (hxy : x < y) : cellOf cfg y < cellOf cfg x := by
  have := cellOf_cast hx
  have := cellOf_cast hy
  omega

/-- Settles O9: the three named positions are in range, and `cellOf_cast` gives the cell of every position in range. -/
theorem positionsMapInReverseOrder : Obligations.PositionsMapInReverseOrder := by
  unfold Obligations.PositionsMapInReverseOrder
  intro cfg hn
  have hlast := cellOf_cast ((inRange_iff cfg ((cfg.n : Int) - 1)).mpr (by omega))
  have hfirst := cellOf_cast ((inRange_iff cfg 0).mpr (by omega))
  have haux := cellOf_cast ((inRange_iff cfg (-1)).mpr (by omega))
  exact ⟨by omega, by omega, by omega, fun x hx => ⟨cellOf_cast hx, fun y hy hxy => cellOf_lt_cellOf hx hy hxy⟩⟩

/-- A cell of at most four bits loses none when it is moved to the top of the container (R55). -/
theorem addressContainer_toNat {cfg : Config} {pos : Int} (hn : cellOf cfg pos ≤ 15) :
    (addressContainer cfg pos).toNat = 16 * cellOf cfg pos := by
  rw [addressContainer, BitVec.toNat_shiftLeft, BitVec.toNat_ofNat, Nat.shiftLeft_eq]
  omega

/-- The six bits on the wire are the container without its two lowest bits (R43). -/
theorem addressField_toNat (cfg : Config) (pos : Int) :
    (addressField cfg pos).toNat = (addressContainer cfg pos).toNat / 4 := by
  have := (addressContainer cfg pos).isLt
  rw [addressField, BitVec.extractLsb'_toNat, Nat.shiftRight_eq_div_pow]
  omega

/-- In a build of at most 15 digits the address on the wire is 4 times the cell (R43). -/
theorem addressField_toNat_eq_cell {cfg : Config} {pos : Int} (hn : cfg.n ≤ 15) (h : inRange cfg pos = true) :
    (addressField cfg pos).toNat = 4 * cellOf cfg pos := by
  have hc := cellOf_le h
  rw [addressField_toNat, addressContainer_toNat (by omega)]
  omega

/-- Settles O10: N is at most 15, so the address determines the cell, and the cell the position. -/
theorem addressIsFourTimesTheCell : Obligations.AddressIsFourTimesTheCell := by
  unfold Obligations.AddressIsFourTimesTheCell
  rintro cfg x ⟨⟨-, hn⟩, -⟩ hx
  have hc := cellOf_le hx
  refine ⟨hc, addressContainer_toNat (hc.trans hn), addressField_toNat_eq_cell hn hx, fun y hy hxy => ?_⟩
  have hfield := congrArg BitVec.toNat hxy
  rw [addressField_toNat_eq_cell hn hx, addressField_toNat_eq_cell hn hy] at hfield
  exact cellOf_injective hy hx (by omega)

/-! ## The bits of the frames -/

/-- Most significant first is the order of falling bit numbers (R44). -/
theorem bitsMsb_eq_reverse {w : Nat} (x : BitVec w) : bitsMsb x = ((List.range w).map x.getLsbD).reverse := by
  refine List.ext_getElem (by simp) fun i hi _ => ?_
  have hi : i < w := by simpa using hi
  simp [bitsMsb, BitVec.getMsbD, hi]

theorem sysFrame_eq_bitsMsb (cfg : Config) (cmd : Byte) : sysFrame cfg cmd = bitsMsb (cfg.pfxCmd ++ cmd ++ 0#1) := rfl

theorem segFrame_eq_bitsMsb (cfg : Config) (pos : Int) (p : Pattern) :
    segFrame cfg pos p = bitsMsb (cfg.pfxWr ++ addressField cfg pos ++ lowByte p ++ highByte p) := rfl

/-- A SYS frame as its fields in time order (R52). -/
theorem sysFrame_eq_fields (cfg : Config) (cmd : Byte) :
    sysFrame cfg cmd = bitsMsb cfg.pfxCmd ++ bitsMsb cmd ++ [false] := by
  rw [sysFrame_eq_bitsMsb, bitsMsb_append, bitsMsb_append]
  rfl

/-- A SEG frame as its fields in time order (R53). -/
theorem segFrame_eq_fields (cfg : Config) (pos : Int) (p : Pattern) :
    segFrame cfg pos p =
      bitsMsb cfg.pfxWr ++ bitsMsb (addressField cfg pos) ++ bitsMsb (lowByte p) ++ bitsMsb (highByte p) := by
  rw [segFrame_eq_bitsMsb, bitsMsb_append, bitsMsb_append, bitsMsb_append]

/-- The number of a concatenation. -/
theorem toNat_append_eq_add {u v : Nat} (x : BitVec u) (y : BitVec v) : (x ++ y).toNat = x.toNat * 2 ^ v + y.toNat := by
  rw [BitVec.toNat_append, ← Nat.shiftLeft_add_eq_or_of_lt y.isLt, Nat.shiftLeft_eq]

/-- A SYS frame as one number (R52). -/
theorem ofBitsMsb_sysFrame (cfg : Config) (cmd : Byte) :
    ofBitsMsb (sysFrame cfg cmd) = cfg.pfxCmd.toNat * 2 ^ 9 + cmd.toNat * 2 := by
  rw [sysFrame_eq_bitsMsb, ofBitsMsb_bitsMsb, toNat_append_eq_add, toNat_append_eq_add, BitVec.toNat_ofNat]
  omega

theorem lowByte_toNat (p : Pattern) : (lowByte p).toNat = p.toNat % 256 := by
  rw [lowByte, BitVec.extractLsb'_toNat, Nat.shiftRight_zero]

theorem highByte_toNat (p : Pattern) : (highByte p).toNat = p.toNat / 256 := by
  have := p.isLt
  rw [highByte, BitVec.extractLsb'_toNat, Nat.shiftRight_eq_div_pow]
  omega

/-- A SEG frame as one number (R53). -/
theorem ofBitsMsb_segFrame (cfg : Config) (pos : Int) (p : Pattern) :
    ofBitsMsb (segFrame cfg pos p) =
      cfg.pfxWr.toNat * 2 ^ 22 + (addressContainer cfg pos).toNat / 4 * 2 ^ 16 + p.toNat % 256 * 2 ^ 8 +
        p.toNat / 256 := by
  rw [segFrame_eq_bitsMsb, ofBitsMsb_bitsMsb, toNat_append_eq_add, toNat_append_eq_add, toNat_append_eq_add,
    addressField_toNat, lowByte_toNat, highByte_toNat]
  omega

/-- Settles O8: each frame is the concatenation of its fields, as bits and as a number. -/
theorem frameBitsInTimeOrder : Obligations.FrameBitsInTimeOrder := by
  unfold Obligations.FrameBitsInTimeOrder
  refine ⟨fun cfg cmd => ⟨?_, ofBitsMsb_sysFrame cfg cmd⟩, fun cfg pos p => ⟨?_, ofBitsMsb_segFrame cfg pos p⟩⟩
  · simp [sysFrame_eq_fields, bitsMsb_eq_reverse, List.range_succ]
  · simp [segFrame_eq_fields, bitsMsb_eq_reverse, List.range_succ, addressField, lowByte, highByte]

/-! ## The glyph tables -/

/-- Settles O45: the tables are read from the build, and no operation writes it. -/
theorem glyphTablesAreImmutable : Obligations.GlyphTablesAreImmutable := by
  unfold Obligations.GlyphTablesAreImmutable
  intro i s t h
  have hcfg := exec_cfg h
  rw [hcfg]
  exact ⟨rfl, fun _ => rfl, fun _ => rfl, fun _ => rfl⟩

/-! ## DISP and the frames -/

/-- An operation keeps DISP equal to the frames if receiving the frames it sends gives the DISP it leaves (R46). -/
theorem dispMatchesFrames_of_received {s t : State} {fs : List (List Bit)} (hs : s.DispMatchesFrames)
    (hcfg : t.cfg = s.cfg) (hframes : t.frames = s.frames ++ fs)
    (hdisp : t.disp = fs.foldl (receiveFrame s.cfg) s.disp) : t.DispMatchesFrames := by
  unfold State.DispMatchesFrames at *
  rw [hdisp, hs, hcfg, hframes, dispOfFrames, dispOfFrames, List.foldl_append]

/-- ENABLE's SYS frames write no cell, and its SEG frames are those of the full clear (R46, R100). -/
theorem enableFrames_received {cfg : Config} (hn : cfg.n ≤ 15) (sym : BitVec 2) (m : Memory) :
    (enableFrames cfg sym).foldl (receiveFrame cfg) m = writeAll cfg m (fillWrites cfg sym 0x0000#16) := by
  have hsys : (enableSysFrames cfg).foldl (receiveFrame cfg) m = m := by
    simp only [enableSysFrames, List.foldl_cons, List.foldl_nil, receiveFrame_sys]
  rw [enableFrames, List.foldl_append, hsys, ← writeFrames_fill]
  exact writeAll_received hn m _ fun _ hw => (mem_fillWrites hw).1

theorem dispMatchesFrames_enable {s : State} (hs : s.Inv) (hd : s.DispMatchesFrames) :
    (enable s).DispMatchesFrames := by
  obtain ⟨⟨-, hn⟩, -⟩ := hs.build
  obtain ⟨hcfg, -, -, -, -, -, hdisp⟩ := enable_spec s
  obtain ⟨-, hframes⟩ := enable_frames hs.trace_nil_or_idle
  exact dispMatchesFrames_of_received hd hcfg hframes (hdisp.trans (enableFrames_received hn _ _).symm)

theorem dispMatchesFrames_of_writes {s t : State} {ws : List (Int × Pattern)} (hs : s.Inv) (hm : s.mode = .enabled)
    (hd : s.DispMatchesFrames) (hw : Writes s t ws) (hrange : ∀ w ∈ ws, inRange s.cfg w.1 = true) :
    t.DispMatchesFrames := by
  obtain ⟨⟨-, hn⟩, -⟩ := hs.build
  obtain ⟨-, htrace, -⟩ := hs.enabled hm
  obtain ⟨-, hframes⟩ := hw.emits.frames htrace
  exact dispMatchesFrames_of_received hd hw.emits.cfg hframes (hw.disp.trans (writeAll_received hn _ ws hrange).symm)

/-- Every host operation that completes keeps DISP equal to what the frames say (R46). -/
theorem dispMatchesFrames_exec {i : Instr} {s t : State} (hi : i.hasCommandWord = true) (hs : s.Inv)
    (hd : s.DispMatchesFrames) (h : exec i s = .next t) : t.DispMatchesFrames := by
  obtain ⟨-, rfl⟩ | ⟨-, hm, ws, hw, hrange⟩ | ⟨-, -, v, rfl, -⟩ := exec_host_cases hi h
  · exact dispMatchesFrames_enable hs hd
  · exact dispMatchesFrames_of_writes hs hm hd hw hrange
  · exact hd

/-- Settles O50: a step is idle or a host operation, and each of the three shapes of a host operation sends the frames
that record its writes. -/
theorem stepKeepsDispEqualToFrames : Obligations.StepKeepsDispEqualToFrames := by
  unfold Obligations.StepKeepsDispEqualToFrames
  intro s t hs hd h
  obtain ⟨-, rfl⟩ | ⟨c, rest, i, -, -, hi, he⟩ := step_cases h
  · exact hd
  · exact dispMatchesFrames_exec hi (Inv_withPort hs rest) hd he

end Sys2Proof.Machine

/-! The command word and the wire frames: the decoder and the encoder of each against the other; the words the machine
refuses; and the frames it sends. -/

namespace Sys2Proof

/-! ## The fields of a command word -/

/-- A word is its upper bits followed by its lower bits. -/
theorem extract_append_extract {u v : Nat} (x : BitVec (u + v)) : x.extractLsb' v u ++ x.extractLsb' 0 v = x :=
  (BitVec.extractLsb'_append_extractLsb'_eq_extractLsb' (Nat.zero_add v).symm).trans BitVec.extractLsb'_eq_self

/-- A word with RSV = 0 is its three other fields packed (R60). -/
theorem Command.packWord_fields {c : Command} (hrsv : c.rsv = 0#4) : packWord c.op c.a c.b = c.word := by
  have hopRsv : c.op ++ c.rsv = c.word.extractLsb' 24 (4 + 4) := BitVec.extractLsb'_append_extractLsb'_eq_extractLsb' rfl
  have hopRsvA : c.op ++ c.rsv ++ c.a = c.word.extractLsb' 16 (4 + 4 + 8) :=
    hopRsv ▸ BitVec.extractLsb'_append_extractLsb'_eq_extractLsb' rfl
  rw [packWord, ← hrsv, hopRsvA]
  exact extract_append_extract (u := 4 + 4 + 8) (v := 16) c.word

/-- A command with RSV = 0 is what its fields and its text say (R60). -/
theorem Command.some_packWord_eq {c : Command} {op : BitVec 4} {a : BitVec 8} {b : BitVec 16} {text : List Byte}
    (hrsv : c.rsv = 0#4) (hop : c.op = op) (ha : c.a = a) (hb : c.b = b) (ht : c.text = text) :
    some ⟨packWord op a b, text⟩ = some c := by
  subst hop ha hb ht
  rw [Command.packWord_fields hrsv]

/-- A word whose top bit is 1 is that bit and its other 31 bits (R62). -/
theorem one_append_low {x : BitVec 32} (h : x.msb = true) : 1#1 ++ x.extractLsb' 0 31 = x := by
  have htop : x.extractLsb' 31 1 = 1#1 := by
    refine BitVec.eq_of_getLsbD_eq fun i hi => ?_
    obtain rfl : i = 0 := by omega
    simpa [BitVec.msb_eq_getLsbD_last] using h
  rw [← htop]
  exact extract_append_extract (u := 1) (v := 31) x

/-- Field B of a character operation, from its two parts (R61). -/
theorem eq_charField {b : BitVec 16} (h : b.extractLsb' 8 8 = 0#8) : b = 0#8 ++ b.extractLsb' 0 8 := by
  rw [← h]
  exact (Machine.pattern_bytes b).symm

/-- Field B of a symbol operation, from its two parts (R61). -/
theorem eq_maskField {b : BitVec 16} (h : b.extractLsb' 2 14 = 0#14) : b = 0#14 ++ b.extractLsb' 0 2 := by
  rw [← h]
  exact (extract_append_extract (u := 14) (v := 2) b).symm

/-! ## The decoder and the encoder -/

/-- Every check of the decoder lets a command pass only if its condition for refusing is false. -/
theorem ite_error_eq_ok {p : Prop} [Decidable p] {e : BadWord} {r : Except BadWord Instr} {i : Instr} :
    (if p then .error e else r) = .ok i ↔ ¬p ∧ r = .ok i := by
  split <;> simp_all

theorem withoutText_eq_ok {c : Command} {i j : Instr} : withoutText c i = .ok j ↔ c.text = [] ∧ i = j := by
  unfold withoutText
  split <;> simp_all

/-- The encoder writes an operation back as the command it was decoded from, and what is decoded is well formed: row by
row of the table (R61). -/
theorem encode_of_decode {c : Command} {i : Instr} (h : decode c = .ok i) :
    encode i = some c ∧ i.wellFormed = true := by
  unfold decode at h
  split at h
  · rename_i hmsb
    obtain ⟨ht, rfl⟩ := withoutText_eq_ok.mp h
    refine ⟨?_, rfl⟩
    rw [encode, one_append_low hmsb, ← ht]
  rename_i hmsb
  obtain ⟨hrsv, h⟩ := ite_error_eq_ok.mp h
  have hrsv : c.rsv = 0#4 := not_not.mp hrsv
  split at h <;> simp only [ite_error_eq_ok, withoutText_eq_ok, ne_eq, not_not] at h
  case h_1 hop | h_5 hop | h_6 hop =>
    obtain ⟨ha, hb, ht, rfl⟩ := h
    exact ⟨Command.some_packWord_eq hrsv (BitVec.eq_of_toNat_eq hop) ha hb ht, rfl⟩
  case h_2 hop =>
    obtain ⟨ht, rfl⟩ := h
    exact ⟨Command.some_packWord_eq hrsv (BitVec.eq_of_toNat_eq hop) rfl rfl ht, rfl⟩
  case h_3 hop =>
    obtain ⟨hb, ht, rfl⟩ := h
    exact ⟨Command.some_packWord_eq hrsv (BitVec.eq_of_toNat_eq hop) rfl (eq_charField hb) ht, rfl⟩
  case h_4 hop =>
    obtain ⟨hb, h⟩ := h
    split at h
    · rename_i hlen
      obtain rfl := Except.ok.inj h
      have ha : c.a = BitVec.ofNat 8 c.text.length := by rw [hlen, BitVec.ofNat_toNat, BitVec.setWidth_eq]
      exact ⟨Command.some_packWord_eq hrsv (BitVec.eq_of_toNat_eq hop) ha hb rfl,
        decide_eq_true (hlen ▸ Nat.le_of_lt_succ c.a.isLt)⟩
    · cases h
  case h_7 hop =>
    obtain ⟨ha, hb, ht, rfl⟩ := h
    exact ⟨Command.some_packWord_eq hrsv (BitVec.eq_of_toNat_eq hop) ha (eq_maskField hb) ht, rfl⟩
  case h_8 _ h0 h1 h2 h3 h4 h5 h6 =>
    obtain ⟨ha, hb, ht, rfl⟩ := h
    have hlt : c.op.toNat < 8 := by simpa [Command.msb_iff] using hmsb
    simp only [imp_false] at h0 h1 h2 h3 h4 h5 h6
    have hop : c.op.toNat = 7 := by omega
    exact ⟨Command.some_packWord_eq hrsv (BitVec.eq_of_toNat_eq hop) ha (eq_maskField hb) ht, rfl⟩

/-- Settles O6: the encoder inverts each row of the decoder's table, and the decoder knows host operations only. -/
theorem encodeInvertsDecode : Obligations.EncodeInvertsDecode := by
  unfold Obligations.EncodeInvertsDecode
  intro c i h
  obtain ⟨hc, hw⟩ := encode_of_decode h
  exact ⟨hc, hw, Machine.decode_hasCommandWord h⟩

/-- The host operations, and they alone, have a command (R61, R112). -/
theorem encode_isSome (i : Instr) : (encode i).isSome = i.hasCommandWord := by
  cases i <;> rfl

/-- Settles O5: a host operation has a command, and the decoder reads each command back row by row of the table. -/
theorem decodeInvertsEncode : Obligations.DecodeInvertsEncode := by
  unfold Obligations.DecodeInvertsEncode
  intro i hw hi
  obtain ⟨c, hc⟩ := Option.isSome_iff_exists.mp ((encode_isSome i).trans hi)
  exact ⟨c, hc, Machine.decode_encode hw hc⟩

/-- Settles O4: the decoder evaluated on each of the ten words. -/
theorem commandWordsDecode : Obligations.CommandWordsDecode := by
  unfold Obligations.CommandWordsDecode
  decide

/-! ## The wire frames -/

/-- A 12-bit string's number is the SYS word of its fields (R52). -/
theorem sysWord_of_fields {cfg : Config} {x : BitVec 12} (hpfx : x.extractLsb' 9 3 = cfg.pfxCmd)
    (hpad : x.extractLsb' 0 1 = 0#1) : sysWord cfg (x.extractLsb' 1 8) = x := by
  have hhigh : x.extractLsb' 9 3 ++ x.extractLsb' 1 8 = x.extractLsb' 1 (3 + 8) :=
    BitVec.extractLsb'_append_extractLsb'_eq_extractLsb' rfl
  rw [sysWord, ← hpfx, ← hpad, hhigh]
  exact extract_append_extract (u := 3 + 8) (v := 1) x

/-- A 25-bit string's number is the SEG word of its fields, the low byte before the high byte (R53). -/
theorem segWord_of_fields {cfg : Config} {x : BitVec 25} (hpfx : x.extractLsb' 22 3 = cfg.pfxWr) :
    segWord cfg (x.extractLsb' 16 6) (x.extractLsb' 0 8 ++ x.extractLsb' 8 8) = x := by
  have hhigh : x.extractLsb' 22 3 ++ x.extractLsb' 16 6 = x.extractLsb' 16 (3 + 6) :=
    BitVec.extractLsb'_append_extractLsb'_eq_extractLsb' rfl
  have hmid : x.extractLsb' 16 (3 + 6) ++ x.extractLsb' 8 8 = x.extractLsb' 8 (3 + 6 + 8) :=
    BitVec.extractLsb'_append_extractLsb'_eq_extractLsb' rfl
  rw [segWord, Machine.extract_low, Machine.extract_high, ← hpfx, hhigh, hmid]
  exact extract_append_extract (u := 3 + 6 + 8) (v := 8) x

theorem decodeFrame_encodeFrame (cfg : Config) (f : WireFrame) : decodeFrame cfg (encodeFrame cfg f) = some f := by
  cases f with
  | sys cmd => exact Machine.decodeFrame_sys cfg cmd
  | seg addr p => exact Machine.decodeFrame_seg cfg addr p

/-- A bit string is the frame its length and its first three bits say it is (R64). -/
theorem encodeFrame_of_decodeFrame {cfg : Config} {bits : List Bit} {f : WireFrame}
    (h : decodeFrame cfg bits = some f) : encodeFrame cfg f = bits := by
  unfold decodeFrame at h
  split at h
  · rename_i hlen
    obtain ⟨⟨hpfx, hpad⟩, hf⟩ := Option.ite_none_right_eq_some.mp h
    obtain rfl := Option.some.inj hf
    rw [encodeFrame, sysWord_of_fields hpfx hpad, bitsMsb_ofBitsMsb bits hlen]
  · split at h
    · rename_i hlen
      obtain ⟨hpfx, hf⟩ := Option.ite_none_right_eq_some.mp h
      obtain rfl := Option.some.inj hf
      rw [encodeFrame, segWord_of_fields hpfx, bitsMsb_ofBitsMsb bits hlen]
    · cases h

/-- Settles O7: both directions, one format at a time. -/
theorem wireFramesRoundTrip : Obligations.WireFramesRoundTrip :=
  fun cfg => ⟨decodeFrame_encodeFrame cfg, fun _ _ => encodeFrame_of_decodeFrame⟩

namespace Machine

/-! ## Malformed words -/

/-- Settles O41: the arm of a reserved code looks at neither the state nor the rest of the word. -/
theorem reservedOpIsRefused : Obligations.ReservedOpIsRefused :=
  fun _ _ => rfl

/-- A step refuses a command that decodes, if it decodes at all, to a reserved code (R62, R122). -/
theorem step_refuses {s : State} {c : Command} {rest : List Command} (hp : s.port = c :: rest)
    (h : ∀ i, decode c = .ok i → isReserved i = true) : step s = .refused .badCommandWord := by
  cases hd : decode c with
  | ok i =>
    rw [stepRunsThePresentedOperation s c rest i hp hd]
    cases i with
    | reservedOp low => exact reservedOpIsRefused _ low
    | _ => cases h _ hd
  | error e => simp [step, fetch, hp, hd]

/-- Settles O3: what decodes is a command the encoder writes, and of those only the reserved codes' have such fields. -/
theorem stepRefusesMalformedWords : Obligations.StepRefusesMalformedWords := by
  unfold Obligations.StepRefusesMalformedWords
  intro s c rest hp h
  refine step_refuses hp fun i hd => ?_
  obtain ⟨hc, -⟩ := encode_of_decode hd
  cases i with
  | reservedOp low => rfl
  | enable | clear | allOn | setSegments | setCharacter | setString | setSymbol | unsetSymbol =>
    obtain rfl := Option.some.inj hc
    simp [Command.rsv_pack, Command.op_pack, Command.a_pack, Command.b_pack, charField_bits, maskField_bits] at h
  | _ => cases hc

/-! ## The frames the machine sends -/

/-- Settles O22: each is SYS_CMD of the build's byte, which appends the events of one SYS frame. -/
theorem namedSystemCommandsSendTheirBytes : Obligations.NamedSystemCommandsSendTheirBytes := by
  unfold Obligations.NamedSystemCommandsSendTheirBytes
  intro s x hx
  have hexec : exec x.1 s = .next (sysCmd x.2 s) := by
    simp only [List.mem_cons, List.not_mem_nil, or_false] at hx
    obtain rfl | rfl | rfl := hx
    · rfl
    · rfl
    · rfl
  have he := sysCmd_emits x.2 s
  have hframe : Emits s (sysCmd x.2 s) ([sysFrame s.cfg x.2].flatMap frameEvents) := by
    rwa [List.flatMap_singleton]
  exact ⟨_, hexec, he.trace, hframe.frames, sysCmd_lines x.2 s, he.onlySends, sysCmd_disp x.2 s⟩

/-- The frames of segment writes in range are legal (R54). -/
theorem legalFrame_of_mem_writeFrames {cfg : Config} {ws : List (Int × Pattern)}
    (hrange : ∀ w ∈ ws, inRange cfg w.1 = true) : ∀ f ∈ writeFrames cfg ws, LegalFrame cfg f := by
  intro f hf
  obtain ⟨w, hw, rfl⟩ := List.mem_map.mp hf
  exact .inr ⟨w.1, w.2, hrange w hw, rfl⟩

theorem legalFrame_of_mem_enableSysFrames {cfg : Config} : ∀ f ∈ enableSysFrames cfg, LegalFrame cfg f := by
  intro f hf
  simp only [enableSysFrames, List.mem_cons, List.not_mem_nil, or_false] at hf
  obtain rfl | rfl | rfl := hf
  · exact .inl ⟨_, rfl, .inl rfl⟩
  · exact .inl ⟨_, rfl, .inr (.inl rfl)⟩
  · exact .inl ⟨_, rfl, .inr (.inr rfl)⟩

/-- ENABLE sends the three system commands and a full clear (R100). -/
theorem legalFrame_of_mem_enableFrames {cfg : Config} {sym : BitVec 2} :
    ∀ f ∈ enableFrames cfg sym, LegalFrame cfg f := by
  rw [enableFrames, ← writeFrames_fill]
  exact List.forall_mem_append.mpr ⟨legalFrame_of_mem_enableSysFrames,
    legalFrame_of_mem_writeFrames fun _ hw => (mem_fillWrites hw).1⟩

/-- All frames stay legal if those an operation sends are. -/
theorem legalFrames_of_sent {s t : State} {fs : List (List Bit)} (hs : ∀ f ∈ s.frames, LegalFrame s.cfg f)
    (hcfg : t.cfg = s.cfg) (hframes : t.frames = s.frames ++ fs) (hfs : ∀ f ∈ fs, LegalFrame s.cfg f) :
    ∀ f ∈ t.frames, LegalFrame t.cfg f := by
  rw [hcfg, hframes]
  exact List.forall_mem_append.mpr ⟨hs, hfs⟩

/-- Every host operation that completes sends legal frames only (R50, R54, R62). -/
theorem legalFrames_exec {i : Instr} {s t : State} (hi : i.hasCommandWord = true) (hs : s.Inv)
    (hl : ∀ f ∈ s.frames, LegalFrame s.cfg f) (h : exec i s = .next t) : ∀ f ∈ t.frames, LegalFrame t.cfg f := by
  obtain ⟨-, rfl⟩ | ⟨-, hm, ws, hw, hrange⟩ | ⟨-, -, v, rfl, -⟩ := exec_host_cases hi h
  · obtain ⟨hcfg, -⟩ := enable_spec s
    obtain ⟨-, hframes⟩ := enable_frames hs.trace_nil_or_idle
    exact legalFrames_of_sent hl hcfg hframes legalFrame_of_mem_enableFrames
  · obtain ⟨-, htrace, -⟩ := hs.enabled hm
    obtain ⟨-, hframes⟩ := hw.emits.frames htrace
    exact legalFrames_of_sent hl hw.emits.cfg hframes (legalFrame_of_mem_writeFrames hrange)
  · exact hl

/-- Settles O51: a step is idle or a host operation, and each of the three shapes of a host operation sends legal frames
only. -/
theorem stepSendsOnlyLegalFrames : Obligations.StepSendsOnlyLegalFrames := by
  unfold Obligations.StepSendsOnlyLegalFrames
  intro s t hs hl h
  obtain ⟨-, rfl⟩ | ⟨c, rest, i, -, -, hi, he⟩ := step_cases h
  · exact hl
  · exact legalFrames_exec hi (Inv_withPort hs rest) hl he

end Machine

end Sys2Proof

/-! ENCODE and the glyph ROM (spec 40_segment_encoder.md): what folding does to a code, the table entry each range of
codes reads, and which codes have a glyph. -/

namespace Sys2Proof.Machine

/-! ## Folding -/

/-- A lowercase letter folds to the code 0x20 below it (R59). -/
theorem foldCase_lower {ch : Byte} (h : 0x61 ≤ ch.toNat ∧ ch.toNat ≤ 0x7A) : foldCase ch = ch - 0x20#8 := if_pos h

/-- Every other code is left as it is (R59). -/
theorem foldCase_other {ch : Byte} (h : ¬(0x61 ≤ ch.toNat ∧ ch.toNat ≤ 0x7A)) : foldCase ch = ch := if_neg h

theorem toNat_foldCase_lower {ch : Byte} (h : 0x61 ≤ ch.toNat ∧ ch.toNat ≤ 0x7A) :
    (foldCase ch).toNat = ch.toNat - 0x20 := by
  rw [foldCase_lower h, BitVec.toNat_sub_of_le (BitVec.le_def.mpr (Nat.le_trans (by decide) h.1)), BitVec.toNat_ofNat]

/-- Folding is idempotent: an uppercase letter is no lowercase letter (R71). -/
theorem foldCase_foldCase (ch : Byte) : foldCase (foldCase ch) = foldCase ch := by
  by_cases h : 0x61 ≤ ch.toNat ∧ ch.toNat ≤ 0x7A
  · have hupper := toNat_foldCase_lower h
    exact foldCase_other (by omega)
  · rw [foldCase_other h, foldCase_other h]

/-! ## The entry each code reads -/

/-- ENCODE sees a character through its folded code only (R70). -/
theorem glyphOf_foldCase (cfg : Config) (ch : Byte) : glyphOf cfg (foldCase ch) = glyphOf cfg ch := by
  simp only [glyphOf, foldCase_foldCase]

/-- The codes from SPACE to '9', from '@' to 'Z' and from 'a' to 'z' (R70, R73); `isSome_glyphOf_iff` ties them to
ENCODE. -/
abbrev Mapped (k : Nat) : Prop := (0x20 ≤ k ∧ k ≤ 0x39) ∨ (0x40 ≤ k ∧ k ≤ 0x5A) ∨ (0x61 ≤ k ∧ k ≤ 0x7A)

/-- The three mapped ranges, each by the index in its range, and all other codes. -/
theorem code_cases (ch : Byte) :
    (∃ i : Fin 26, ch.toNat = 0x20 + i.val) ∨ (∃ i : Fin 27, ch.toNat = 0x40 + i.val) ∨
      (∃ i : Fin 26, ch.toNat = 0x61 + i.val) ∨ ¬Mapped ch.toNat := by
  by_cases hsym : 0x20 ≤ ch.toNat ∧ ch.toNat ≤ 0x39
  · exact .inl ⟨⟨ch.toNat - 0x20, by omega⟩, (Nat.add_sub_cancel' hsym.1).symm⟩
  by_cases hlet : 0x40 ≤ ch.toNat ∧ ch.toNat ≤ 0x5A
  · exact .inr (.inl ⟨⟨ch.toNat - 0x40, by omega⟩, (Nat.add_sub_cancel' hlet.1).symm⟩)
  by_cases hlow : 0x61 ≤ ch.toNat ∧ ch.toNat ≤ 0x7A
  · exact .inr (.inr (.inl ⟨⟨ch.toNat - 0x61, by omega⟩, (Nat.add_sub_cancel' hlow.1).symm⟩))
  · exact .inr (.inr (.inr (by omega)))

theorem glyphOf_symbol (cfg : Config) {ch : Byte} {i : Fin 26} (h : ch.toNat = 0x20 + i.val) :
    glyphOf cfg ch = some (glyphSym cfg i) := by
  simp only [glyphOf, foldCase_other (ch := ch) (by omega)]
  rw [if_pos (by omega), h, Nat.add_sub_cancel_left, Fin.ofNat_val_eq_self]

theorem glyphOf_letter (cfg : Config) {ch : Byte} {i : Fin 27} (h : ch.toNat = 0x40 + i.val) :
    glyphOf cfg ch = some (glyphLet cfg i) := by
  simp only [glyphOf, foldCase_other (ch := ch) (by omega)]
  rw [if_neg (by omega), if_pos (by omega), h, Nat.add_sub_cancel_left, Fin.ofNat_val_eq_self]

/-- The letters table starts at '@', so the first letter is its entry 1 (R32). -/
theorem glyphOf_lower (cfg : Config) {ch : Byte} {i : Fin 26} (h : ch.toNat = 0x61 + i.val) :
    glyphOf cfg ch = some (glyphLet cfg i.succ) := by
  have hupper := toNat_foldCase_lower (ch := ch) (by omega)
  rw [← glyphOf_foldCase]
  exact glyphOf_letter cfg (by rw [hupper, Fin.val_succ]; omega)

theorem glyphOf_unmapped (cfg : Config) {ch : Byte} (h : ¬Mapped ch.toNat) : glyphOf cfg ch = none := by
  simp only [glyphOf, foldCase_other (ch := ch) (by omega)]
  rw [if_neg (by omega), if_neg (by omega)]

/-- Settles O11: the operation returns its state unchanged, and each range of codes has its equation. -/
theorem encodeReadsTheGlyphTables : Obligations.EncodeReadsTheGlyphTables := by
  unfold Obligations.EncodeReadsTheGlyphTables
  exact ⟨fun _ _ => ⟨rfl, rfl⟩, fun cfg _ =>
    ⟨fun _ => glyphOf_symbol cfg, fun _ => glyphOf_letter cfg, fun _ => glyphOf_lower cfg,
      fun hgap => glyphOf_unmapped cfg (by omega)⟩⟩

/-- Settles O12: the glyph is that of the folded code, and a lowercase letter folds to its uppercase letter. -/
theorem lowercaseLettersShareTheUppercaseGlyph : Obligations.LowercaseLettersShareTheUppercaseGlyph := by
  unfold Obligations.LowercaseLettersShareTheUppercaseGlyph
  intro cfg ch
  refine ⟨fun hlo hhi => ?_, foldCase_foldCase ch⟩
  rw [← foldCase_lower ⟨hlo, hhi⟩, glyphOf_foldCase]

/-! ## SLANTED -/

/-- The entries 18 and 19, those of '2' and '3', are the only ones with an alternate (R33). -/
theorem glyphSym_withSlanted (cfg : Config) (b : Bool) {i : Fin 26} (h2 : i.val ≠ 18) (h3 : i.val ≠ 19) :
    glyphSym { cfg with slanted := b } i = glyphSym cfg i := by
  simp only [glyphSym, h2, h3, and_false, if_false]

/-- The two digits apart, no glyph depends on SLANTED (R74). -/
theorem glyphOf_withSlanted (cfg : Config) (b : Bool) {ch : Byte} (h2 : ch ≠ 0x32#8) (h3 : ch ≠ 0x33#8) :
    glyphOf { cfg with slanted := b } ch = glyphOf cfg ch := by
  obtain ⟨i, hi⟩ | ⟨i, hi⟩ | ⟨i, hi⟩ | hu := code_cases ch
  · have hi2 : i.val ≠ 18 := fun h => h2 (BitVec.eq_of_toNat_eq (by rw [hi, h]; rfl))
    have hi3 : i.val ≠ 19 := fun h => h3 (BitVec.eq_of_toNat_eq (by rw [hi, h]; rfl))
    rw [glyphOf_symbol _ hi, glyphOf_symbol _ hi, glyphSym_withSlanted cfg b hi2 hi3]
  · rw [glyphOf_letter _ hi, glyphOf_letter _ hi]; rfl
  · rw [glyphOf_lower _ hi, glyphOf_lower _ hi]; rfl
  · rw [glyphOf_unmapped _ hu, glyphOf_unmapped _ hu]

theorem glyphSym_two (cfg : Config) :
    glyphSym cfg 18 = if cfg.slanted then cfg.glyph2Slant else cfg.glyphSymBase[18] := by
  simp [glyphSym]

theorem glyphSym_three (cfg : Config) :
    glyphSym cfg 19 = if cfg.slanted then cfg.glyph3Slant else cfg.glyphSymBase[19] := by
  simp [glyphSym]

/-- Settles O14: the digits '2' and '3' are entries 18 and 19, and no operation changes the build. -/
theorem slantedChangesOnlyTwoAndThree : Obligations.SlantedChangesOnlyTwoAndThree := by
  unfold Obligations.SlantedChangesOnlyTwoAndThree
  refine ⟨fun cfg b ch => glyphOf_withSlanted cfg b, fun cfg => ⟨?_, ?_⟩, fun i s t h => ?_⟩
  · rw [← glyphSym_two]
    exact glyphOf_symbol cfg rfl
  · rw [← glyphSym_three]
    exact glyphOf_symbol cfg rfl
  · rw [exec_cfg h]

/-! ## The codes that have a glyph -/

/-- The mapped codes, and they alone, have a glyph, whatever the build (R73). -/
theorem isSome_glyphOf_iff (cfg : Config) (ch : Byte) : (glyphOf cfg ch).isSome = true ↔ Mapped ch.toNat := by
  obtain ⟨i, hi⟩ | ⟨i, hi⟩ | ⟨i, hi⟩ | hu := code_cases ch
  · rw [glyphOf_symbol cfg hi]
    exact iff_of_true rfl (by omega)
  · rw [glyphOf_letter cfg hi]
    exact iff_of_true rfl (by omega)
  · rw [glyphOf_lower cfg hi]
    exact iff_of_true rfl (by omega)
  · rw [glyphOf_unmapped cfg hu]
    exact iff_of_false Bool.false_ne_true hu

/-- The number of mapped codes from `lo` to `hi`. -/
def mappedBetween (lo hi : Nat) : Nat :=
  (List.range 256).countP fun k => decide (lo ≤ k ∧ k ≤ hi) && decide (Mapped k)

/-- The codes with a glyph are counted without looking at the build. -/
theorem countP_glyphOf (cfg : Config) (lo hi : Nat) :
    ((List.range 256).countP fun k => decide (lo ≤ k ∧ k ≤ hi) && (glyphOf cfg (BitVec.ofNat 8 k)).isSome) =
      mappedBetween lo hi := by
  refine List.countP_congr fun k hk => ?_
  have hcode : (BitVec.ofNat 8 k).toNat = k := Nat.mod_eq_of_lt (List.mem_range.mp hk)
  rw [Bool.and_eq_true, Bool.and_eq_true, isSome_glyphOf_iff, hcode, decide_eq_true_iff (p := Mapped k)]

/-- Settles O13: the counts of the mapped codes, which no longer mention the build. -/
theorem seventyNineCodesHaveAGlyph : Obligations.SeventyNineCodesHaveAGlyph := by
  unfold Obligations.SeventyNineCodesHaveAGlyph
  intro cfg
  simp only [countP_glyphOf]
  decide +kernel

end Sys2Proof.Machine

/-! The transport (spec 41_bit_serial_transport.md): what START_TX, SEND_BITS and END_TX leave, one transaction as one
frame, and DATA stable across every rise of the write-clock. -/

namespace Sys2Proof.Machine

/-! ## The three transport operations -/

/-- From an idle trace, START_TX shows as a fall of chip-select alone: the other two lines are high already (R80). -/
theorem waveFrom_startEvents : waveFrom Pins.idle startEvents = [.drive .cs Level.low] := by decide

/-- Events appended to an idle trace show in the waveform as they do from idle pins. -/
theorem Emits.waveform {s t : State} {es : List Event} (h : Emits s t es) (hi : s.TraceIdle) :
    t.waveform = s.waveform ++ waveFrom Pins.idle es := by
  rw [State.waveform, h.trace, waveform_append, hi.pins, State.waveform]

/-- Settles O16: START_TX appends `startEvents`, and of those only the fall of chip-select changes an idle line. -/
theorem startTxOpensTheBracket : Obligations.StartTxOpensTheBracket := by
  unfold Obligations.StartTxOpensTheBracket
  intro s
  have he := startTx_emits s
  have hwave : s.TraceIdle → (startTx s).waveform = s.waveform ++ [.drive .cs Level.low] :=
    fun hi => waveFrom_startEvents ▸ he.waveform hi
  exact ⟨startTx s, rfl, startTx_level s, startTx_tx s, he.trace, hwave, he.cfg, he.mode, he.sym, he.dir,
    startTx_disp s, he.port, startTx_shreg s, startTx_bitcnt s⟩

theorem getMsbD_byte (v : Byte) {k : Nat} (h : k < 8) : v.getMsbD k = v.getLsbD (7 - k) := by
  rw [BitVec.getMsbD, decide_eq_true h, Bool.true_and]

/-- The bits SEND_BITS clocks are the container's from bit 7 down (R81, D1). -/
theorem take_bitsMsb_byte (v : Byte) {n : Nat} (h : n ≤ 8) :
    (bitsMsb v).take n = (List.range n).map fun k => v.getLsbD (7 - k) := by
  rw [take_bitsMsb v h]
  exact List.map_congr_left fun k hk => getMsbD_byte v (Nat.lt_of_lt_of_le (List.mem_range.mp hk) h)

theorem exec_sendBits {s : State} (v : Byte) {n : Nat} (ho : s.tx = .opened) (h1 : 1 ≤ n) (h8 : n ≤ 8) :
    exec (.sendBits v n) s = .next (sendBits v n s) :=
  whenOpen_next.mpr ⟨ho, if_pos ⟨h1, h8⟩⟩

/-- Settles O17: SEND_BITS appends the events of the top n bits, and its loop ends at the last of them. -/
theorem sendBitsClocksTheTopBits : Obligations.SendBitsClocksTheTopBits := by
  unfold Obligations.SendBitsClocksTheTopBits
  intro s v n ho h1 h8
  have he := sendBits_emits v h8 s
  have htrace := he.trace
  rw [take_bitsMsb_byte v h8] at htrace
  have hlast : v.getMsbD (n - 1) = v.getLsbD (8 - n) := by
    rw [getMsbD_byte v (by omega), show 7 - (n - 1) = 8 - n by omega]
  have hlevel := sendBits_level v h1 s
  rw [hlast] at hlevel
  exact ⟨_, exec_sendBits v ho h1 h8, htrace, hlevel, (sendBits_tx v n s).trans ho, sendBits_shreg v n s,
    sendBits_bitcnt v n s, he.cfg, he.mode, he.sym, he.dir, sendBits_disp v n s, he.port⟩

/-- Settles O18: END_TX appends `endEvents` and drives the other two lines only. -/
theorem endTxClosesTheBracket : Obligations.EndTxClosesTheBracket := by
  unfold Obligations.EndTxClosesTheBracket
  intro s ho
  have he := endTx_emits s
  have hexec : exec .endTx s = .next (endTx s) := whenOpen_next.mpr ⟨ho, rfl⟩
  exact ⟨_, hexec, endTx_level s, endTx_tx s, he.trace, he.cfg, he.mode, he.sym, he.dir, endTx_disp s, he.port,
    endTx_shreg s, endTx_bitcnt s⟩

theorem whenOpen_idle {s : State} (h : s.tx = .idle) (r : Result) : whenOpen s r = .fault .transportOutsideBracket :=
  if_neg (by rw [h]; exact nofun)

theorem whenOpen_opened {s : State} (h : s.tx = .opened) (r : Result) : whenOpen s r = r := if_pos h

/-- Settles O19: the bracket is checked first, and then the bit count. -/
theorem transportStopsOutsideItsPreconditions : Obligations.TransportStopsOutsideItsPreconditions := by
  unfold Obligations.TransportStopsOutsideItsPreconditions
  intro s v n
  refine ⟨fun hidle => ⟨whenOpen_idle hidle _, whenOpen_idle hidle _⟩, fun hopen hn => ?_⟩
  exact (whenOpen_opened hopen _).trans (if_neg (by omega))

/-! ## One transaction is one frame -/

theorem fieldBits_ne_nil {fields : List (Byte × Nat)} (hne : fields ≠ []) (h1 : ∀ f ∈ fields, 1 ≤ f.2) :
    fieldBits fields ≠ [] := by
  obtain ⟨f, rest, rfl⟩ := List.exists_cons_of_ne_nil hne
  have hf : 1 ≤ f.2 := h1 f List.mem_cons_self
  have hlen : 0 < ((bitsMsb f.1).take f.2).length := by
    rw [List.length_take, length_bitsMsb]
    omega
  rw [fieldBits, List.flatMap_cons]
  exact List.append_ne_nil_of_left_ne_nil (List.ne_nil_of_length_pos hlen) _

/-- Settles O20: a transaction appends the events of one frame, whose waveform and effect on an idle receiver are
known. -/
theorem transactionIsOneFrame : Obligations.TransactionIsOneFrame := by
  unfold Obligations.TransactionIsOneFrame
  intro s fields hne hcounts hidle htrace
  have h8 : ∀ f ∈ fields, f.2 ≤ 8 := fun f hf => (hcounts f hf).2
  have hbits := fieldBits_ne_nil hne fun f hf => (hcounts f hf).1
  have he := transaction_emits fields h8 s
  have hwave := he.waveform htrace
  rw [waveFrom_frameEvents _ hbits] at hwave
  have hframe : Emits s (transaction fields s) ([fieldBits fields].flatMap frameEvents) := by
    rwa [List.flatMap_singleton]
  obtain ⟨htrace', hframes⟩ := hframe.frames htrace
  have hlines : LinesHigh (transaction fields s) := ⟨transaction_tx fields s, transaction_level fields h8 s⟩
  exact ⟨hwave, hframes, idle_of hidle he.dir hlines, htrace', transaction_disp fields h8 s⟩

/-! ## DATA inside a frame -/

theorem dataStable_append (r : Receiver) (es fs : List Event) :
    DataStable r (es ++ fs) ↔ DataStable r es ∧ DataStable (r.after es) fs := by
  induction es generalizing r with
  | nil => exact ⟨fun h => ⟨trivial, h⟩, And.right⟩
  | cons e es ih =>
    rw [List.cons_append, DataStable, DataStable, ih, and_assoc]
    rfl

/-- Deleting the events that change no wire keeps DATA stable. -/
theorem dataStable_waveFrom {r : Receiver} {p : Pins} {es : List Event} (hl : r.level = p.level)
    (h : DataStable r es) : DataStable r (waveFrom p es) := by
  induction es generalizing r p with
  | nil => exact h
  | cons e es ih =>
    obtain ⟨he, hes⟩ := h
    have htail := ih (r.event_level p e hl) hes
    rw [waveFrom]
    split
    next hu => rwa [r.event_unchanged p e hl hu] at htail
    next => exact ⟨he, htail⟩

/-- SEND_BITS drives DATA after it has driven the write-clock low (R81). -/
theorem dataStable_bitEvents (r : Receiver) (bits : List Bit) : DataStable r (bits.flatMap bitEvents) := by
  induction bits generalizing r with
  | nil => trivial
  | cons b bits ih =>
    rw [List.flatMap_cons, dataStable_append]
    refine ⟨?_, ih _⟩
    simp [bitEvents, DataStable, Receiver.event]

/-- END_TX has closed the frame when it drives DATA (R82). -/
theorem dataStable_endEvents {r : Receiver} (h : r.level.cs = some Level.low) : DataStable r endEvents := by
  simp [endEvents, DataStable, Receiver.event, Receiver.chipSelect, h]

/-- Driving chip-select high opens no frame. -/
theorem Receiver.chipSelect_high_current {r : Receiver} (h : r.current = none) :
    (r.chipSelect Level.high).current = none := by
  rw [chipSelect, if_neg (by simp)]
  split
  · rfl
  · exact h

/-- The set-up of ENABLE drives DATA with no frame open (R100). -/
theorem dataStable_setupEvents {r : Receiver} (h : r.current = none) : DataStable r setupEvents := by
  simp [setupEvents, DataStable, Receiver.event, Receiver.writeClock, Receiver.chipSelect_high_current h]

/-- A frame sent from idle: START_TX moves chip-select alone, and what follows keeps DATA stable event by event. -/
theorem dataStable_frameEvents (bits : List Bit) (closed : List (List Bit)) :
    DataStable (Receiver.idle closed) (waveFrom Pins.idle (frameEvents bits)) := by
  have hopen : (Receiver.idle closed).after [.drive .cs Level.low] =
      ⟨⟨some Level.low, some Level.high, some Level.high⟩, some [], closed⟩ := rfl
  have hrest : DataStable ((Receiver.idle closed).after [.drive .cs Level.low])
      (bits.flatMap bitEvents ++ endEvents) := by
    rw [dataStable_append, hopen, Receiver.after_bitEvents]
    exact ⟨dataStable_bitEvents _ bits, dataStable_endEvents rfl⟩
  rw [frameEvents, List.append_assoc, waveFrom_append, waveFrom_startEvents, dataStable_append]
  exact ⟨⟨nofun, trivial⟩, dataStable_waveFrom rfl hrest⟩

theorem dataStable_frames (fs closed : List (List Bit)) :
    DataStable (Receiver.idle closed) (waveFrom Pins.idle (fs.flatMap frameEvents)) := by
  induction fs generalizing closed with
  | nil => trivial
  | cons f fs ih =>
    rw [List.flatMap_cons, waveFrom_append, dataStable_append, Receiver.after_waveFrom _ _ _ rfl,
      Receiver.after_frameEvents, Pins.after_frameEvents]
    exact ⟨dataStable_frameEvents f closed, ih _⟩

/-! ## DATA over a step -/

/-- A longer trace keeps DATA stable if the events added do, seen from where the pins and the receiver stand. -/
theorem dataStable_of_trace {s t : State} {es : List Event} (hs : DataStable Receiver.start s.waveform)
    (ht : t.trace = s.trace ++ es)
    (hes : DataStable (Receiver.start.after s.trace) (waveFrom (Pins.powerOn.after s.trace) es)) :
    DataStable Receiver.start t.waveform := by
  rw [State.waveform, ht, waveform_append, dataStable_append, Receiver.after_waveform]
  exact ⟨hs, hes⟩

/-- Frames sent from an idle bus keep DATA stable (R83 (d)). -/
theorem dataStable_of_frames {s t : State} {fs : List (List Bit)} (hs : DataStable Receiver.start s.waveform)
    (hi : s.TraceIdle) (ht : t.trace = s.trace ++ fs.flatMap frameEvents) : DataStable Receiver.start t.waveform := by
  refine dataStable_of_trace hs ht ?_
  rw [hi.receiver, hi.pins]
  exact dataStable_frames fs s.frames

/-- In a good state the receiver has no frame open. -/
theorem State.Inv.receiver_current {s : State} (h : s.Inv) : (Receiver.start.after s.trace).current = none := by
  obtain htrace | hidle := h.trace_nil_or_idle
  · rw [htrace]
    rfl
  · rw [hidle.receiver]

theorem pinSetup_trace (s : State) : (pinSetup s).trace = s.trace ++ setupEvents := by
  obtain ⟨-, -, -, -, -, -, -, -, htrace⟩ := pinSetup_fields s
  exact htrace

/-- The set-up leaves the bus idle, if no frame was open before it (R100). -/
theorem traceIdle_pinSetup {s : State} (h : s.Inv) : (pinSetup s).TraceIdle := by
  obtain ⟨hpins, hrecv⟩ := setup_idle (h.trace_nil_or_idle.imp id fun hidle => ⟨s.frames, hidle.receiver⟩)
  rw [← pinSetup_trace] at hpins hrecv
  exact (traceIdle_of hpins hrecv).1

theorem dataStable_pinSetup {s : State} (h : s.Inv) (hs : DataStable Receiver.start s.waveform) :
    DataStable Receiver.start (pinSetup s).waveform :=
  dataStable_of_trace hs (pinSetup_trace s)
    (dataStable_waveFrom (Receiver.after_level _ _ _ rfl) (dataStable_setupEvents h.receiver_current))

/-- ENABLE keeps DATA stable: its set-up does, and its frames are sent from the idle bus the set-up leaves. -/
theorem dataStable_enable {s : State} (h : s.Inv) (hs : DataStable Receiver.start s.waveform) :
    DataStable Receiver.start (enable s).waveform := by
  obtain ⟨-, -, -, -, -, htrace, -⟩ := enable_spec s
  rw [← pinSetup_trace] at htrace
  exact dataStable_of_frames (dataStable_pinSetup h hs) (traceIdle_pinSetup h) htrace

/-- Every host operation that completes keeps DATA stable (R83 (d)). -/
theorem dataStable_exec {i : Instr} {s t : State} (hi : i.hasCommandWord = true) (hs : s.Inv)
    (hd : DataStable Receiver.start s.waveform) (h : exec i s = .next t) : DataStable Receiver.start t.waveform := by
  obtain ⟨-, rfl⟩ | ⟨-, hm, ws, hw, -⟩ | ⟨-, -, v, rfl, -⟩ := exec_host_cases hi h
  · exact dataStable_enable hs hd
  · obtain ⟨-, htrace, -⟩ := hs.enabled hm
    exact dataStable_of_frames hd htrace hw.emits.trace
  · exact hd

/-- Settles O52: a step is idle or a host operation, and each of the three shapes of a host operation keeps DATA
stable. -/
theorem stepKeepsDataStable : Obligations.StepKeepsDataStable := by
  unfold Obligations.StepKeepsDataStable
  intro s t hs hd h
  obtain ⟨-, rfl⟩ | ⟨c, rest, i, -, -, hi, he⟩ := step_cases h
  · exact hd
  · exact dataStable_exec hi (Inv_withPort hs rest) hd he

end Sys2Proof.Machine

/-! The command protocol (spec 42_command_protocol.md): what SYS_CMD and SEG_WRITE send, leave unchanged and record. -/

namespace Sys2Proof.Machine

/-! ## One frame, and the operations that send one -/

/-- The events of one frame, appended to a trace that ends idle: the receiver recovers that frame. -/
theorem Emits.frame {s t : State} {bits : List Bit} (h : Emits s t (frameEvents bits)) (hi : s.TraceIdle) :
    t.TraceIdle ∧ t.frames = s.frames ++ [bits] := by
  have hframes : Emits s t ([bits].flatMap frameEvents) := by
    rwa [List.flatMap_singleton]
  exact hframes.frames hi

theorem segWrite_emits (pos : Int) (p : Pattern) (s : State) :
    Emits s (segWrite pos p s) (frameEvents (segFrame s.cfg pos p)) := by
  have h := (segWrite_writes pos p s).emits
  rwa [writeFrames, List.map_singleton, List.flatMap_singleton] at h

theorem segWrite_disp (pos : Int) (p : Pattern) (s : State) :
    (segWrite pos p s).disp = s.disp.write (cellOf s.cfg pos) p :=
  (segWrite_writes pos p s).disp

theorem segWrite_lines (pos : Int) (p : Pattern) (s : State) : LinesHigh (segWrite pos p s) :=
  ⟨segWrite_tx pos p s, segWrite_level pos p s⟩

/-- SYS_CMD has no check that could stop it (R94). -/
theorem exec_sysCmd (cmd : Byte) (s : State) : exec (.sysCmd cmd) s = .next (sysCmd cmd s) := rfl

/-- In range, SEG_WRITE completes: the position is all it checks. -/
theorem exec_segWrite {s : State} {pos : Int} (p : Pattern) (h : inRange s.cfg pos = true) :
    exec (.segWrite pos p) s = .next (segWrite pos p s) :=
  whenInRange_next.mpr ⟨h, rfl⟩

/-- Settles O21: SYS_CMD emits the events of one SYS frame and leaves the lines high and DISP alone. -/
theorem sysCmdSendsOneSysFrame : Obligations.SysCmdSendsOneSysFrame := by
  unfold Obligations.SysCmdSendsOneSysFrame
  intro s cmd
  have he := sysCmd_emits cmd s
  exact ⟨_, exec_sysCmd cmd s, he.frame, sysCmd_lines cmd s, he.onlySends, sysCmd_disp cmd s⟩

/-- Settles O23: SEG_WRITE emits the events of one SEG frame and writes one cell of DISP. -/
theorem segWriteSendsOneSegFrame : Obligations.SegWriteSendsOneSegFrame := by
  unfold Obligations.SegWriteSendsOneSegFrame
  intro s pos p hr
  have he := segWrite_emits pos p s
  refine ⟨_, exec_segWrite p hr, he.frame, segWrite_lines pos p s, he.onlySends, ?_, fun c hc => ?_⟩
  · rw [segWrite_disp, Memory.read_write_same]
  · rw [segWrite_disp, Memory.read_write_other _ _ hc]

/-! ## The raw events of a frame -/

/-- The counts depend on the number of bits alone: 3 holds and 3 drives to a bit, 2 holds and 6 drives around them
(R96). -/
theorem frameEvents_counts_of_length {bits : List Bit} {k : Nat} (h : bits.length = k) :
    ((frameEvents bits).countP fun e => decide (e = .hold .tBit)) = 3 * k + 2 ∧
      (frameEvents bits).length = 6 * k + 8 := by
  obtain ⟨hholds, -, hlen⟩ := frameEvents_counts bits
  rw [h] at hholds hlen
  exact ⟨hholds, hlen⟩

/-- Settles O24: each operation appends the events of its frame, whose counts are those of 12 bits
and of 25. -/
theorem frameEventsAndCounts : Obligations.FrameEventsAndCounts := by
  unfold Obligations.FrameEventsAndCounts
  intro s cmd pos p hr holds
  obtain ⟨hsysHolds, hsysLen⟩ := frameEvents_counts_of_length (length_sysFrame s.cfg cmd)
  obtain ⟨hsegHolds, hsegLen⟩ := frameEvents_counts_of_length (length_segFrame s.cfg pos p)
  exact ⟨⟨_, _, exec_sysCmd cmd s, (sysCmd_emits cmd s).trace, rfl, hsysHolds, hsysLen⟩,
    _, _, exec_segWrite p hr, (segWrite_emits pos p s).trace, rfl, hsegHolds, hsegLen⟩

end Sys2Proof.Machine

/-! The display driver (spec 43_display_driver.md): each host operation as the segment writes it causes, with the frames,
the cells and the lines that go with them; the two flags; and what repeating a full clear or an ENABLE does. -/

namespace Sys2Proof.Machine

/-! ## What each host operation runs once enabled -/

/-- SET_SEGMENTS is one SEG_WRITE of the overlaid pattern, the range check included (R101). -/
theorem exec_setSegments_eq_segWrite {s : State} (pos : BitVec 8) (pat : Pattern) (hm : s.mode = .enabled) :
    exec (.setSegments pos pat) s = exec (.segWrite pos.toInt (transmitted s.cfg s.sym pos.toInt pat)) s :=
  if_pos hm

/-- With a glyph, SET_CHARACTER is SET_SEGMENTS of it, the checks included (R102). -/
theorem exec_setCharacter_eq_setSegments {s : State} (pos : BitVec 8) {ch : Byte} {g : Pattern}
    (hg : glyphOf s.cfg ch = some g) : exec (.setCharacter pos ch) s = exec (.setSegments pos g) s := by
  have hset : setCharacter (positionOf pos) ch s = setSegments (positionOf pos) g s := by
    simp only [setCharacter, hg]
  simp only [exec, execSetCharacter, execSetSegments, hset]

theorem exec_setString {s : State} (text : List Byte) (hm : s.mode = .enabled) :
    exec (.setString text) s = .next (setString text s) :=
  whenEnabled_next.mpr ⟨hm, rfl⟩

theorem exec_clear {s : State} (hm : s.mode = .enabled) : exec .clear s = .next (fill 0x0000#16 s) :=
  whenEnabled_next.mpr ⟨hm, rfl⟩

theorem exec_allOn {s : State} (hm : s.mode = .enabled) : exec .allOn s = .next (fill 0xFFFF#16 s) :=
  whenEnabled_next.mpr ⟨hm, rfl⟩

/-- ENABLE has no check that could stop it (R100, D30). -/
theorem exec_enable (s : State) : exec .enable s = .next (enable s) := rfl

/-- Settles O33: once the mode check has passed, SYM is the one field written. -/
theorem setSymbolOrsTheMask : Obligations.SetSymbolOrsTheMask :=
  fun _ _ hm => whenEnabled_next.mpr ⟨hm, rfl⟩

/-- Settles O34: once the mode check has passed, SYM is the one field written. -/
theorem unsetSymbolClearsTheMask : Obligations.UnsetSymbolClearsTheMask :=
  fun _ _ hm => whenEnabled_next.mpr ⟨hm, rfl⟩

/-! ## The transmitted pattern -/

theorem transmitted_indicator (cfg : Config) (sym : BitVec 2) {pos : Int} (pat : Pattern) (h : pos = cfg.indicatorPos) :
    transmitted cfg sym pos pat = pat ||| overlay cfg sym :=
  if_pos h

theorem transmitted_elsewhere (cfg : Config) (sym : BitVec 2) {pos : Int} (pat : Pattern)
    (h : pos ≠ cfg.indicatorPos) : transmitted cfg sym pos pat = pat :=
  if_neg h

/-- A blank shows the overlay at INDICATOR_POS and nothing elsewhere (R106). -/
theorem transmitted_zero (cfg : Config) (sym : BitVec 2) (pos : Int) :
    transmitted cfg sym pos 0x0000#16 = if pos = cfg.indicatorPos then overlay cfg sym else 0 := by
  rw [transmitted, BitVec.zero_or]
  rfl

/-- The overlay adds no bit to a pattern that has them all (R105). -/
theorem transmitted_allOnes (cfg : Config) (sym : BitVec 2) (pos : Int) :
    transmitted cfg sym pos 0xFFFF#16 = 0xFFFF#16 := by
  have hor : 0xFFFF#16 ||| overlay cfg sym = 0xFFFF#16 := BitVec.allOnes_or
  rw [transmitted, hor, ite_self]

/-- With both flags clear every pattern is sent as it is (R13). -/
theorem transmitted_noFlags (cfg : Config) (pos : Int) (pat : Pattern) : transmitted cfg 0 pos pat = pat := by
  have hclear : overlay cfg 0 = 0 := (overlayOfTheTwoFlags cfg 0).1
  have hor : pat ||| overlay cfg 0 = pat := by
    rw [hclear]
    exact BitVec.or_zero
  rw [transmitted, hor, ite_self]

/-! ## One position -/

/-- Settles O25: the operation is the SEG_WRITE of the overlaid pattern, and SEG_WRITE is known. -/
theorem setSegmentsSendsOneFrame : Obligations.SetSegmentsSendsOneFrame := by
  unfold Obligations.SetSegmentsSendsOneFrame
  intro s pos pat hm hr
  obtain ⟨t, hexec, hframes, hlines, honly, hread, hother⟩ :=
    segWriteSendsOneSegFrame s pos.toInt (transmitted s.cfg s.sym pos.toInt pat) hr
  exact ⟨t, (exec_setSegments_eq_segWrite pos pat hm).trans hexec, transmitted s.cfg s.sym pos.toInt pat,
    transmitted_indicator s.cfg s.sym pat, transmitted_elsewhere s.cfg s.sym pat, hexec, hframes, hlines, honly, hread,
    hother⟩

/-- Settles O26: the character and its folded form have one glyph, so all three operations are one SEG_WRITE. -/
theorem setCharacterWritesTheGlyph : Obligations.SetCharacterWritesTheGlyph := by
  unfold Obligations.SetCharacterWritesTheGlyph
  intro s pos ch g hm hr hg
  obtain ⟨t, hexec, hframes, hlines, honly, hread, hother⟩ :=
    segWriteSendsOneSegFrame s pos.toInt (transmitted s.cfg s.sym pos.toInt g) hr
  have hset : exec (.setSegments pos g) s = .next t := (exec_setSegments_eq_segWrite pos g hm).trans hexec
  have hfold : glyphOf s.cfg (foldCase ch) = some g := (glyphOf_foldCase s.cfg ch).trans hg
  exact ⟨t, (exec_setCharacter_eq_setSegments pos hg).trans hset, hset,
    (exec_setCharacter_eq_setSegments pos hfold).trans hset, fun hi => (hframes hi).2, hlines, honly, hread, hother⟩

/-! ## A text -/

theorem setString_emits (text : List Byte) (s : State) :
    Emits s (setString text s) ((stringFrames s.cfg s.sym text).flatMap frameEvents) :=
  writeFrames_string s.cfg s.sym text ▸ (setString_writes text s).emits

/-- The cell of a character with a glyph, among the first N, holds it (R103). -/
theorem setString_read {s : State} {text : List Byte} {i : Nat} (hi : i < text.length) (hn : i < s.cfg.n) {g : Pattern}
    (hg : glyphOf s.cfg text[i] = some g) :
    (setString text s).disp.read (cellOf s.cfg i) = some (transmitted s.cfg s.sym i g) := by
  have hlen : i < (text.take s.cfg.n).length := by
    rw [List.length_take]
    omega
  have hmem := textWrites_mem (cfg := s.cfg) (sym := s.sym) 0 hlen (by rwa [List.getElem_take])
  rw [zero_add] at hmem
  rw [(setString_writes text s).disp]
  exact writeAll_read_mem s.cfg s.disp _ (stringWrites_nodup s.cfg s.sym text) hmem

/-- A cell where no character with a glyph falls reads as before (R104). -/
theorem setString_read_other {s : State} {text : List Byte} {c : Nat}
    (h : ∀ (i : Nat) (hi : i < text.length), i < s.cfg.n → (glyphOf s.cfg text[i]).isSome = true →
      cellOf s.cfg i ≠ c) : (setString text s).disp.read c = s.disp.read c := by
  rw [(setString_writes text s).disp]
  refine writeAll_read_other s.cfg s.disp _ c fun w hw => ?_
  obtain ⟨i, hi, g, hpos, hg, -⟩ := mem_textWrites hw
  rw [List.length_take] at hi
  rw [List.getElem_take] at hg
  rw [hpos, zero_add]
  exact h i (by omega) (by omega) (Option.isSome_of_eq_some hg)

/-- Settles O28: SET_STRING is the list of writes of its characters with a glyph, to distinct cells. -/
theorem setStringWritesLeftToRight : Obligations.SetStringWritesLeftToRight := by
  unfold Obligations.SetStringWritesLeftToRight
  intro s text hm
  have he := setString_emits text s
  exact ⟨setString text s, exec_setString text hm, he.trace, he.frames,
    fun hl => (setString_writes text s).lines (.inl hl), he.onlySends,
    fun i hi g hn hg => setString_read hi hn hg, fun c hc => setString_read_other hc⟩

/-! ## Every position -/

theorem fill_emits (pat : Pattern) (s : State) :
    Emits s (fill pat s) ((fillFrames s.cfg s.sym pat).flatMap frameEvents) :=
  writeFrames_fill s.cfg s.sym pat ▸ (fill_writes pat s).emits

theorem fill_lines (pat : Pattern) (s : State) : LinesHigh (fill pat s) :=
  (fill_writes pat s).lines (.inr (fillWrites_ne_nil _ _ _))

theorem length_fillFrames (cfg : Config) (sym : BitVec 2) (pat : Pattern) :
    (fillFrames cfg sym pat).length = cfg.n + 1 := by
  simp only [fillFrames, allPositions, List.length_map, List.length_range]

theorem read_fillWrites {cfg : Config} {pos : Int} (hr : inRange cfg pos = true) (sym : BitVec 2) (pat : Pattern)
    (m : Memory) :
    (writeAll cfg m (fillWrites cfg sym pat)).read (cellOf cfg pos) = some (transmitted cfg sym pos pat) :=
  writeAll_read_mem cfg m _ (fillWrites_nodup cfg sym pat) (List.mem_map.mpr ⟨pos, mem_allPositions hr, rfl⟩)

/-- A full clear leaves 0 in every cell but the indicator's, which shows the overlay (R106). -/
theorem read_fillWrites_zero {cfg : Config} {pos : Int} (hr : inRange cfg pos = true) (sym : BitVec 2) (m : Memory) :
    (writeAll cfg m (fillWrites cfg sym 0x0000#16)).read (cellOf cfg pos) =
      some (if pos = cfg.indicatorPos then overlay cfg sym else 0) := by
  rw [read_fillWrites hr, transmitted_zero]

/-- No position in range has a cell above N (R42). -/
theorem read_fillWrites_above {cfg : Config} {c : Nat} (hc : cfg.n < c) (sym : BitVec 2) (pat : Pattern) (m : Memory) :
    (writeAll cfg m (fillWrites cfg sym pat)).read c = m.read c := by
  refine writeAll_read_other cfg m _ c fun w hw => ?_
  have hle := cellOf_le (mem_fillWrites hw).1
  omega

/-- Settles O29: a fill with 0, whose writes reach every cell 0..N once. -/
theorem clearRequestsZeroEverywhere : Obligations.ClearRequestsZeroEverywhere := by
  unfold Obligations.ClearRequestsZeroEverywhere
  intro s hm
  have he := fill_emits 0x0000#16 s
  have hdisp := (fill_writes 0x0000#16 s).disp
  refine ⟨fill 0x0000#16 s, exec_clear hm, he.trace, length_fillFrames _ _ _, he.frames, fill_lines _ s, he.onlySends,
    fun pos hr => ?_, fun c hc => ?_⟩
  · rw [hdisp, read_fillWrites_zero hr]
  · rw [hdisp, read_fillWrites_above hc]

theorem fillFrames_allOnes (cfg : Config) (sym : BitVec 2) :
    fillFrames cfg sym 0xFFFF#16 = (allPositions cfg).map fun pos => segFrame cfg pos 0xFFFF#16 := by
  simp only [fillFrames, transmitted_allOnes]

/-- Settles O30: a fill with 0xFFFF, to which the overlay adds nothing. -/
theorem allOnSetsEverySegment : Obligations.AllOnSetsEverySegment := by
  unfold Obligations.AllOnSetsEverySegment
  intro s hm
  have he := fill_emits 0xFFFF#16 s
  have hdisp := (fill_writes 0xFFFF#16 s).disp
  refine ⟨fill 0xFFFF#16 s, exec_allOn hm,
    ⟨_, he.trace, fillFrames_allOnes s.cfg s.sym, length_fillFrames _ _ _, he.frames⟩, fill_lines _ s, he.onlySends,
    fun c hc => ?_, fun c hc => ?_⟩
  · obtain ⟨pos, hr, rfl⟩ := exists_position hc
    rw [hdisp, read_fillWrites hr, transmitted_allOnes]
  · rw [hdisp, read_fillWrites_above hc]

/-! ## ENABLE -/

/-- Settles O31: `enable_spec` lists the events and the writes; those writes are the ones of a full clear. -/
theorem enableSendsTheFixedSequence : Obligations.EnableSendsTheFixedSequence := by
  unfold Obligations.EnableSendsTheFixedSequence
  intro s
  obtain ⟨hcfg, hsym, hport, hmode, hidle, htrace, hdisp⟩ := enable_spec s
  refine ⟨enable s, exec_enable s, hmode, hsym, hcfg, hport, hidle, htrace, fun hi => ?_, fun pos hr => ?_,
    fun c hc => ?_⟩
  · rw [List.append_assoc]
    exact enable_frames hi
  · rw [hdisp, read_fillWrites_zero hr]
  · rw [hdisp, read_fillWrites_above hc]

theorem fillFrames_noFlags (cfg : Config) (pat : Pattern) :
    fillFrames cfg 0 pat = (allPositions cfg).map fun pos => segFrame cfg pos pat := by
  simp only [fillFrames, transmitted_noFlags]

theorem length_enableFrames (cfg : Config) (sym : BitVec 2) : (enableFrames cfg sym).length = 3 + (cfg.n + 1) := by
  rw [enableFrames, List.length_append, length_fillFrames]
  rfl

/-- Settles O32: at reset nothing has been sent and both flags are clear, so ENABLE's frames carry 0 alone. -/
theorem firstEnableBlanksEveryCell : Obligations.FirstEnableBlanksEveryCell := by
  unfold Obligations.FirstEnableBlanksEveryCell
  obtain ⟨-, -, -, hmode, hidle, -, hdisp⟩ := enable_spec State.reset
  have hframes : (enable State.reset).frames = enableFrames Config.device 0 := (enable_frames (.inl rfl)).2
  refine ⟨enable State.reset, exec_enable _, ?_, ?_, hmode, hidle, fun c hc => ?_⟩
  · rw [hframes, enableFrames, fillFrames_noFlags]
  · rw [hframes, length_enableFrames]
  · obtain ⟨pos, hr, rfl⟩ := exists_position hc
    rw [hdisp]
    exact (read_fillWrites hr 0 _ _).trans (congrArg some (transmitted_noFlags _ _ _))

/-! ## Repeated operations -/

/-- Writes to distinct cells, done twice, leave what they leave done once. -/
theorem writeAll_writeAll {cfg : Config} {m : Memory} (hm : m.wf) {ws : List (Int × Pattern)}
    (hn : (ws.map fun w => cellOf cfg w.1).Nodup) : writeAll cfg (writeAll cfg m ws) ws = writeAll cfg m ws := by
  refine Memory.eq_of_read_eq (writeAll_wf cfg (writeAll_wf cfg hm ws) ws) (writeAll_wf cfg hm ws) fun c => ?_
  by_cases hc : ∃ w ∈ ws, cellOf cfg w.1 = c
  · obtain ⟨w, hw, rfl⟩ := hc
    rw [writeAll_read_mem cfg _ ws hn hw, writeAll_read_mem cfg m ws hn hw]
  · exact writeAll_read_other cfg _ ws c fun w hw he => hc ⟨w, hw, he⟩

/-- Settles O36: the first CLEAR leaves the build and SYM, so the second sends the same frames and writes the same cells
again. -/
theorem repeatedClearRepeatsItsFrames : Obligations.RepeatedClearRepeatsItsFrames := by
  unfold Obligations.RepeatedClearRepeatsItsFrames
  intro s t u hs ht hu
  obtain ⟨hm, ht⟩ := whenEnabled_next.mp ht
  obtain ⟨-, hu⟩ := whenEnabled_next.mp hu
  obtain rfl := Host.Outcome.next.inj ht
  obtain rfl := Host.Outcome.next.inj hu
  obtain ⟨-, htrace, -⟩ := hs.enabled hm
  have he := fill_emits 0x0000#16 s
  obtain ⟨htrace', hframes⟩ := he.frames htrace
  obtain ⟨-, hframes'⟩ := (fill_emits 0x0000#16 (fill 0x0000#16 s)).frames htrace'
  rw [he.cfg, he.sym] at hframes'
  refine ⟨_, hframes, hframes', length_fillFrames _ _ _, ?_⟩
  rw [(fill_writes _ (fill 0x0000#16 s)).disp, he.cfg, he.sym, (fill_writes _ s).disp]
  exact writeAll_writeAll hs.cells (fillWrites_nodup _ _ _)

/-- Settles O37: the first ENABLE leaves the build and SYM and ends idle, so the second repeats its frames and its
writes. -/
theorem repeatedEnableIsIdempotent : Obligations.RepeatedEnableIsIdempotent := by
  unfold Obligations.RepeatedEnableIsIdempotent
  intro s t u hs ht hu
  obtain rfl := Host.Outcome.next.inj ht
  obtain rfl := Host.Outcome.next.inj hu
  obtain ⟨hcfg, hsym, -, hmode, hidle, -, hdisp⟩ := enable_spec s
  obtain ⟨-, hsym', -, hmode', hidle', -, hdisp'⟩ := enable_spec (enable s)
  obtain ⟨htrace, hframes⟩ := enable_frames hs.trace_nil_or_idle
  obtain ⟨-, hframes'⟩ := enable_frames (.inr htrace)
  rw [hcfg, hsym] at hframes' hdisp'
  refine ⟨hmode'.trans hmode.symm, hsym', hidle'.dir.trans hidle.dir.symm, hidle'.level.trans hidle.level.symm,
    hidle'.tx.trans hidle.tx.symm, ?_, _, hframes, hframes', length_enableFrames _ _⟩
  rw [hdisp', hdisp]
  exact writeAll_writeAll hs.cells (fillWrites_nodup _ _ _)

/-! ## The colon -/

/-- Two different one-bit patterns share no bit. -/
theorem and_eq_zero_of_oneHot {p q : Pattern} (hp : Config.oneHot p = true) (hq : Config.oneHot q = true)
    (hne : p ≠ q) : p &&& q = 0 := by
  simp only [Config.oneHot, List.any_eq_true, List.mem_range, beq_iff_eq] at hp hq
  obtain ⟨j, hj, rfl⟩ := hp
  obtain ⟨k, hk, rfl⟩ := hq
  have hjk : k ≠ j := fun h => hne (by rw [h])
  rw [← BitVec.twoPow_eq, ← BitVec.twoPow_eq, BitVec.twoPow_and, BitVec.getLsbD_twoPow]
  simp [hjk]

theorem or_or_and_self (p c d : Pattern) : (p ||| (c ||| d)) &&& c = c := by grind

/-- Setting the colon leaves the dot as it was (R12). -/
theorem getLsbD_one_symWith_colon (sym : BitVec 2) : (symWith sym 0b01#2).getLsbD 1 = sym.getLsbD 1 := by
  rw [getLsbD_symWith]
  exact Bool.or_false _

theorem overlay_symWith_colon (cfg : Config) (sym : BitVec 2) :
    overlay cfg (symWith sym 0b01#2) = cfg.segColon ||| if sym.getLsbD 1 then cfg.segDot else 0 := by
  simp only [overlay, getLsbD_symWith, BitVec.reduceGetLsb, Bool.or_true, Bool.or_false, if_true]

theorem overlay_symWithout_colon (cfg : Config) (sym : BitVec 2) :
    overlay cfg (symWithout sym 0b01#2) = if sym.getLsbD 1 then cfg.segDot else 0 := by
  simp only [overlay, getLsbD_symWithout, BitVec.reduceGetLsb, Nat.reduceLT, Bool.not_true, Bool.not_false,
    Bool.and_true, Bool.and_false, Bool.false_eq_true, if_false]
  exact BitVec.zero_or

/-- Of an admissible build the dot adds no colon bit (R5). -/
theorem dot_and_colon {cfg : Config} (h : cfg.Admissible) (b : Bool) :
    (if b then cfg.segDot else 0) &&& cfg.segColon = 0 := by
  obtain ⟨-, -, -, hcolon, hdot, hne⟩ := h
  cases b with
  | false => exact BitVec.zero_and
  | true => exact and_eq_zero_of_oneHot hdot hcolon hne.symm

/-- A pattern that a SET_SEGMENTS of INDICATOR_POS requests is in its cell with the overlay. -/
theorem read_of_exec_setSegments {s t : State} {pos : BitVec 8} {pat : Pattern}
    (hpos : positionOf pos = s.cfg.indicatorPos) (h : exec (.setSegments pos pat) s = .next t) :
    t.sym = s.sym ∧ t.disp.read (cellOf s.cfg (positionOf pos)) = some (pat ||| overlay s.cfg s.sym) := by
  obtain ⟨-, h⟩ := whenEnabled_next.mp h
  obtain ⟨-, h⟩ := whenInRange_next.mp h
  obtain rfl := Host.Outcome.next.inj h
  have hw := setSegments_writes (positionOf pos) pat s
  refine ⟨hw.emits.sym, ?_⟩
  rw [hw.disp, ← transmitted_indicator s.cfg s.sym pat hpos]
  exact Memory.read_write_same _ _ _

/-- Settles O35: the two symbol operations write SYM alone, and each SET_SEGMENTS records the overlay of the SYM it
finds. -/
theorem colonShowsOnTheNextWrite : Obligations.ColonShowsOnTheNextWrite := by
  unfold Obligations.ColonShowsOnTheNextWrite
  intro s t u v w pos pat hadm hpos hpat ht hu hv hw cell
  obtain ⟨-, ht⟩ := whenEnabled_next.mp ht
  obtain rfl := Host.Outcome.next.inj ht
  obtain ⟨-, hv⟩ := whenEnabled_next.mp hv
  obtain rfl := Host.Outcome.next.inj hv
  have hcfg : u.cfg = s.cfg := exec_cfg (s := { s with sym := symWith s.sym 0b01#2 }) hu
  obtain ⟨hsym, hread⟩ := read_of_exec_setSegments (s := { s with sym := symWith s.sym 0b01#2 }) hpos hu
  obtain ⟨-, hread'⟩ := read_of_exec_setSegments (s := { u with sym := symWithout u.sym 0b01#2 }) (hcfg ▸ hpos) hw
  rw [overlay_symWith_colon] at hread
  rw [overlay_symWithout_colon, hsym, hcfg, getLsbD_one_symWith_colon] at hread'
  refine ⟨rfl, ⟨_, hread, or_or_and_self _ _ _⟩, rfl, _, hread', ?_, rfl⟩
  rw [BitVec.and_or_distrib_right, hpat, dot_and_colon hadm]
  exact BitVec.or_zero

end Sys2Proof.Machine

/-! The exceptions (spec 60_exceptions.md): the checks a host operation makes before it acts, what it answers when one of
them fails, and the operations that complete without changing anything. -/

namespace Sys2Proof.Machine

/-! ## Nothing to do -/

/-- Settles O2: with an empty port the fetch finds no command. -/
theorem stepWithoutCommandIdles : Obligations.StepWithoutCommandIdles := by
  unfold Obligations.StepWithoutCommandIdles
  intro s hp
  have hf : fetch s = none := by rw [fetch, hp]
  rw [step, hf]

/-- With no glyph there is nothing to send (R102, R128). -/
theorem setCharacter_unmapped (pos : Int) {ch : Byte} {s : State} (h : glyphOf s.cfg ch = none) :
    setCharacter pos ch s = s := by
  rw [setCharacter, h]

theorem setCharactersFrom_unmapped (pos : Int) {text : List Byte} {s : State}
    (h : ∀ ch ∈ text, glyphOf s.cfg ch = none) : setCharactersFrom pos text s = s := by
  induction text generalizing pos with
  | nil => rfl
  | cons ch text ih =>
    obtain ⟨hch, htext⟩ := List.forall_mem_cons.mp h
    rw [setCharactersFrom, setCharacter_unmapped pos hch, ih (pos + 1) htext]

theorem exec_setCharacter {s : State} {pos : BitVec 8} (ch : Byte) (hm : s.mode = .enabled)
    (hr : inRange s.cfg (positionOf pos) = true) :
    exec (.setCharacter pos ch) s = .next (setCharacter (positionOf pos) ch s) :=
  whenEnabled_next.mpr ⟨hm, whenInRange_next.mpr ⟨hr, rfl⟩⟩

/-- Settles O27: an unmapped character leaves the state alone, and so, by induction, does a text of them. -/
theorem unmappedCharacterIsASilentNoOp : Obligations.UnmappedCharacterIsASilentNoOp := by
  unfold Obligations.UnmappedCharacterIsASilentNoOp
  refine fun s hm => ⟨fun pos ch hr hg => ?_, fun text hg => ?_⟩
  · rw [exec_setCharacter ch hm hr, setCharacter_unmapped _ hg]
  · rw [exec_setString text hm, setString, setCharactersFrom_unmapped 0 hg]

/-! ## The checks that fail -/

theorem whenEnabled_uninit {s : State} (h : s.mode = .uninit) (r : Result) : whenEnabled s r = .refused .notEnabled :=
  if_neg (by rw [h]; exact nofun)

theorem whenEnabled_enabled {s : State} (h : s.mode = .enabled) (r : Result) : whenEnabled s r = r := if_pos h

theorem whenInRange_outside {s : State} {pos : Int} (h : pos < -1 ∨ (s.cfg.n : Int) - 1 < pos) (r : Result) :
    whenInRange s pos r = .refused .positionOutOfRange :=
  if_neg (by rw [inRange_iff]; omega)

/-- Settles O40: the position is checked before anything is sent, and before the glyph is looked up. -/
theorem positionOutOfRangeIsRefused : Obligations.PositionOutOfRangeIsRefused := by
  unfold Obligations.PositionOutOfRangeIsRefused
  refine fun s => ⟨fun pos hm hpos => ⟨fun pat => ?_, fun ch => ?_⟩, fun pos p hpos => whenInRange_outside hpos _⟩
  · exact (whenEnabled_enabled hm _).trans (whenInRange_outside hpos _)
  · exact (whenEnabled_enabled hm _).trans (whenInRange_outside hpos _)

/-! ## The checks of a host operation, in order -/

/-- A result behind checks (2) and (3) of R122: the mode, then the position if the operation has one. -/
def whenAdmitted (s : State) : Option Int → Result → Result
  | none, r => whenEnabled s r
  | some pos, r => whenEnabled s (whenInRange s pos r)

/-- A host operation with a defined code, but for ENABLE, makes its checks and then completes (R122). -/
theorem exec_eq_whenAdmitted {i : Instr} (s : State) (hi : i.hasCommandWord = true) (hr : isReserved i = false)
    (hne : i ≠ .enable) : ∃ t, exec i s = whenAdmitted s (hostPosition i) (.next t) := by
  cases i with
  | setSegments pos pat => exact ⟨setSegments (positionOf pos) pat s, rfl⟩
  | setCharacter pos ch => exact ⟨setCharacter (positionOf pos) ch s, rfl⟩
  | setString | clear | allOn | setSymbol | unsetSymbol => exact ⟨_, rfl⟩
  | enable => exact absurd rfl hne
  | reservedOp low => cases hr
  | _ => cases hi

theorem whenAdmitted_uninit {s : State} (h : s.mode = .uninit) (p : Option Int) (r : Result) :
    whenAdmitted s p r = .refused .notEnabled := by
  cases p with
  | none => exact whenEnabled_uninit h r
  | some pos => exact whenEnabled_uninit h _

theorem whenAdmitted_next {s t : State} {p : Option Int} {r : Result} :
    whenAdmitted s p r = .next t ↔
      s.mode = .enabled ∧ (∀ pos, p = some pos → inRange s.cfg pos = true) ∧ r = .next t := by
  cases p with
  | none => simp [whenAdmitted, whenEnabled_next]
  | some pos => simp [whenAdmitted, whenEnabled_next, whenInRange_next]

theorem whenEnabled_ne_fault {s : State} {r : Result} {f : Fault} (h : r ≠ .fault f) : whenEnabled s r ≠ .fault f := by
  unfold whenEnabled
  split
  · exact h
  · exact nofun

theorem whenInRange_ne_fault {s : State} {pos : Int} {r : Result} {f : Fault} (h : r ≠ .fault f) :
    whenInRange s pos r ≠ .fault f := by
  unfold whenInRange
  split
  · exact h
  · exact nofun

/-- The checks refuse; they raise no fault (R120). -/
theorem whenAdmitted_ne_fault {s : State} {p : Option Int} {r : Result} {f : Fault} (h : r ≠ .fault f) :
    whenAdmitted s p r ≠ .fault f := by
  cases p with
  | none => exact whenEnabled_ne_fault h
  | some pos => exact whenEnabled_ne_fault (whenInRange_ne_fault h)

/-- Settles O39: the mode is the first check of every operation but ENABLE and the reserved codes. -/
theorem onlyEnableRunsBeforeEnable : Obligations.OnlyEnableRunsBeforeEnable := by
  unfold Obligations.OnlyEnableRunsBeforeEnable
  intro s i hm hi hne hr
  obtain ⟨t, ht⟩ := exec_eq_whenAdmitted s hi hr hne
  rw [ht, whenAdmitted_uninit hm]

theorem isReserved_iff {i : Instr} : isReserved i = true ↔ ∃ low, i = .reservedOp low := by
  cases i with
  | reservedOp low => exact ⟨fun _ => ⟨low, rfl⟩, fun _ => rfl⟩
  | _ => exact ⟨nofun, nofun⟩

/-- Settles O42: ENABLE always completes, a reserved code never does, and every other operation completes when it is
admitted. -/
theorem hostOperationsCompleteExactlyWhenAdmitted : Obligations.HostOperationsCompleteExactlyWhenAdmitted := by
  unfold Obligations.HostOperationsCompleteExactlyWhenAdmitted
  intro s i hi
  by_cases hne : i = .enable
  · subst hne
    exact ⟨⟨fun _ => ⟨rfl, .inr rfl, nofun⟩, fun _ => ⟨_, exec_enable s⟩⟩, nofun⟩
  cases hr : isReserved i with
  | true =>
    obtain ⟨low, rfl⟩ := isReserved_iff.mp hr
    rw [reservedOpIsRefused s low]
    exact ⟨⟨nofun, nofun⟩, nofun⟩
  | false =>
    obtain ⟨t, ht⟩ := exec_eq_whenAdmitted s hi hr hne
    rw [ht]
    simp only [whenAdmitted_next, hne, or_false, true_and]
    exact ⟨⟨fun ⟨_, hm, hp, _⟩ => ⟨hm, hp⟩, fun ⟨hm, hp⟩ => ⟨t, hm, hp, rfl⟩⟩, fun f => whenAdmitted_ne_fault nofun⟩

end Sys2Proof.Machine

/-! Hazards and timing (spec 70_reset_and_hazards.md): how long ENABLE holds, and how a change of the two flags shows at
the next write of INDICATOR_POS. -/

namespace Sys2Proof.Machine

/-! ## Holds -/

/-- How many holds of a delay a trace has (R156). -/
def holdCount (d : Delay) (es : List Event) : Nat := es.countP fun e => decide (e = .hold d)

theorem holdCount_append (d : Delay) (es fs : List Event) :
    holdCount d (es ++ fs) = holdCount d es + holdCount d fs :=
  List.countP_append

theorem holdCount_cons (d : Delay) (e : Event) (es : List Event) :
    holdCount d (e :: es) = holdCount d es + if e = .hold d then 1 else 0 := by
  simp only [holdCount, List.countP_cons, decide_eq_true_eq]

/-- The held time depends on the two hold counts alone (R157). -/
theorem heldTime_eq_holdCounts (cfg : Config) (es : List Event) :
    heldTime cfg es = holdCount .tSettle es * cfg.tSettle + holdCount .tBit es * cfg.tBit := by
  induction es with
  | nil => simp [heldTime, holdCount]
  | cons e es ih =>
    have hcons : heldTime cfg (e :: es) = heldTime cfg [e] + heldTime cfg es := heldTime_append cfg [e] es
    rw [hcons, ih, holdCount_cons, holdCount_cons]
    cases e with
    | pinMode l => simp [heldTime]
    | drive l v => simp [heldTime]
    | hold d =>
      cases d with
      | tBit =>
        simp [heldTime, Delay.duration]
        ring
      | tSettle =>
        simp [heldTime, Delay.duration]
        ring

theorem holdCount_tSettle_frameEvents (bits : List Bit) : holdCount .tSettle (frameEvents bits) = 0 := by
  obtain ⟨-, hsettle, -⟩ := frameEvents_counts bits
  exact hsettle

theorem holdCount_tBit_frameEvents (bits : List Bit) : holdCount .tBit (frameEvents bits) = 3 * bits.length + 2 :=
  (frameEvents_counts bits).1

/-- Frames with the same number of holds have together that many for each. -/
theorem holdCount_frames {d : Delay} {fs : List (List Bit)} {k : Nat}
    (h : ∀ f ∈ fs, holdCount d (frameEvents f) = k) : holdCount d (fs.flatMap frameEvents) = fs.length * k := by
  have hsum : holdCount d (fs.flatMap frameEvents) = (fs.map fun f => holdCount d (frameEvents f)).sum :=
    List.countP_flatMap
  rw [hsum, List.map_congr_left h, List.map_const', List.sum_replicate, smul_eq_mul]

theorem holdCount_tSettle_frames (fs : List (List Bit)) : holdCount .tSettle (fs.flatMap frameEvents) = 0 :=
  holdCount_frames fun f _ => holdCount_tSettle_frameEvents f

/-- A SYS frame, of 12 bits, has 38 holds of T_BIT (R156). -/
theorem holdCount_tBit_enableSysFrames (cfg : Config) :
    holdCount .tBit ((enableSysFrames cfg).flatMap frameEvents) = 3 * 38 := by
  refine holdCount_frames fun f hf => ?_
  have hlen : f.length = 12 := by
    simp only [enableSysFrames, List.mem_cons, List.not_mem_nil, or_false] at hf
    obtain rfl | rfl | rfl := hf <;> exact length_sysFrame cfg _
  rw [holdCount_tBit_frameEvents, hlen]

/-- A SEG frame, of 25 bits, has 77 holds of T_BIT (R156). -/
theorem holdCount_tBit_fillFrames (cfg : Config) (sym : BitVec 2) (pat : Pattern) :
    holdCount .tBit ((fillFrames cfg sym pat).flatMap frameEvents) = (cfg.n + 1) * 77 := by
  rw [← length_fillFrames cfg sym pat]
  refine holdCount_frames fun f hf => ?_
  obtain ⟨pos, -, rfl⟩ := List.mem_map.mp hf
  rw [holdCount_tBit_frameEvents, length_segFrame]

/-- The events of ENABLE: the set-up, then the frames (R100). -/
def enableEvents (cfg : Config) (sym : BitVec 2) : List Event :=
  setupEvents ++ (enableFrames cfg sym).flatMap frameEvents

theorem enable_trace (s : State) : (enable s).trace = s.trace ++ enableEvents s.cfg s.sym := by
  obtain ⟨-, -, -, -, -, htrace, -⟩ := enable_spec s
  rw [htrace, List.append_assoc, enableEvents]

theorem holdCount_tSettle_enableEvents (cfg : Config) (sym : BitVec 2) :
    holdCount .tSettle (enableEvents cfg sym) = 1 := by
  rw [enableEvents, holdCount_append, holdCount_tSettle_frames]
  decide

theorem holdCount_tBit_enableEvents (cfg : Config) (sym : BitVec 2) :
    holdCount .tBit (enableEvents cfg sym) = 3 * 38 + (cfg.n + 1) * 77 := by
  have hsetup : holdCount .tBit setupEvents = 0 := by decide
  rw [enableEvents, enableFrames, List.flatMap_append, holdCount_append, holdCount_append, hsetup,
    holdCount_tBit_enableSysFrames, holdCount_tBit_fillFrames, zero_add]

/-- Settles O38: ENABLE appends its set-up and its frames; their holds are counted, and the counts give the time. -/
theorem enableHeldTime : Obligations.EnableHeldTime := by
  unfold Obligations.EnableHeldTime
  intro s
  have htime : heldTime s.cfg (enableEvents s.cfg s.sym) =
      s.cfg.tSettle + (3 * 38 + (s.cfg.n + 1) * 77) * s.cfg.tBit := by
    rw [heldTime_eq_holdCounts, holdCount_tSettle_enableEvents, holdCount_tBit_enableEvents, one_mul]
  refine ⟨enable s, enableEvents s.cfg s.sym, exec_enable s, enable_trace s, holdCount_tSettle_enableEvents _ _,
    holdCount_tBit_enableEvents _ _, ?_⟩
  rw [enable_trace, heldTime_append, htime, add_assoc]

/-! ## The flags in a transmitted pattern -/

/-- Of an admissible build the colon adds no dot bit (R5). -/
theorem colon_and_dot {cfg : Config} (h : cfg.Admissible) (b : Bool) :
    (if b then cfg.segColon else 0) &&& cfg.segDot = 0 := by
  obtain ⟨-, -, -, hcolon, hdot, hne⟩ := h
  cases b with
  | false => exact BitVec.zero_and
  | true => exact and_eq_zero_of_oneHot hcolon hdot hne

theorem ite_zero_and_self (b : Bool) (c : Pattern) : (if b then c else 0) &&& c = if b then c else 0 := by
  cases b with
  | false => exact BitVec.zero_and
  | true => exact BitVec.and_self

/-- Of the colon bit the overlay has what flag 0 says (R13). -/
theorem overlay_and_segColon {cfg : Config} (h : cfg.Admissible) (v : BitVec 2) :
    overlay cfg v &&& cfg.segColon = if v.getLsbD 0 then cfg.segColon else 0 := by
  rw [overlay, BitVec.and_or_distrib_right, dot_and_colon h, ite_zero_and_self]
  exact BitVec.or_zero

/-- Of the dot bit the overlay has what flag 1 says (R13). -/
theorem overlay_and_segDot {cfg : Config} (h : cfg.Admissible) (v : BitVec 2) :
    overlay cfg v &&& cfg.segDot = if v.getLsbD 1 then cfg.segDot else 0 := by
  rw [overlay, BitVec.and_or_distrib_right, colon_and_dot h, ite_zero_and_self]
  exact BitVec.zero_or

/-- Where an overlay `o` has a symbol bit `c` as flag `b` says, a set flag shows in every pattern, and a clear one adds
nothing. -/
theorem symbolBit_of_flag {o c : Pattern} {b : Bool} (h : o &&& c = if b then c else 0) (q : Pattern) :
    (b = true → (q ||| o) &&& c = c) ∧ (b = false → q &&& c = 0 → (q ||| o) &&& c = 0) := by
  rw [BitVec.and_or_distrib_right, h]
  constructor
  · rintro rfl
    have habsorb : q &&& c ||| c = c := by grind
    exact habsorb
  · rintro rfl hq
    rw [hq]
    exact BitVec.or_zero

/-! ## The writers of INDICATOR_POS -/

theorem inRange_indicatorPos {cfg : Config} (h : cfg.Admissible) : inRange cfg cfg.indicatorPos = true := by
  obtain ⟨-, -, hpos, -⟩ := h
  exact (inRange_iff _ _).mpr hpos

/-- A fill leaves its pattern, with the overlay, in the indicator's cell (D8). -/
theorem read_fillWrites_indicator {cfg : Config} (h : cfg.Admissible) (sym : BitVec 2) (pat : Pattern) (m : Memory) :
    (writeAll cfg m (fillWrites cfg sym pat)).read (cellOf cfg cfg.indicatorPos) = some (pat ||| overlay cfg sym) := by
  rw [read_fillWrites (inRange_indicatorPos h), transmitted_indicator cfg sym pat rfl]

theorem exec_setSegments_indicator {s : State} {pos : BitVec 8} (pat : Pattern) (hm : s.mode = .enabled)
    (hadm : s.cfg.Admissible) (hpos : positionOf pos = s.cfg.indicatorPos) :
    ∃ u, exec (.setSegments pos pat) s = .next u ∧
      u.disp.read (cellOf s.cfg s.cfg.indicatorPos) = some (pat ||| overlay s.cfg s.sym) := by
  have hr : inRange s.cfg (positionOf pos) = true := hpos ▸ inRange_indicatorPos hadm
  have hexec : exec (.setSegments pos pat) s = .next (setSegments (positionOf pos) pat s) :=
    whenEnabled_next.mpr ⟨hm, whenInRange_next.mpr ⟨hr, rfl⟩⟩
  obtain ⟨-, hread⟩ := read_of_exec_setSegments hpos hexec
  exact ⟨_, hexec, hpos ▸ hread⟩

/-- Every operation that writes INDICATOR_POS completes once enabled, and leaves the pattern it requests there with the
overlay (R150). -/
theorem exec_writesIndicator {s : State} {w : Instr} {q : Pattern} (hm : s.mode = .enabled) (hadm : s.cfg.Admissible)
    (hw : WritesIndicator s.cfg w q) :
    ∃ u, exec w s = .next u ∧
      u.disp.read (cellOf s.cfg s.cfg.indicatorPos) = some (q ||| overlay s.cfg s.sym) := by
  cases w with
  | setSegments pos pat =>
    obtain ⟨hpos, rfl⟩ := hw
    exact exec_setSegments_indicator q hm hadm hpos
  | setCharacter pos ch =>
    obtain ⟨hpos, hg⟩ := hw
    rw [exec_setCharacter_eq_setSegments pos hg]
    exact exec_setSegments_indicator q hm hadm hpos
  | setString text =>
    obtain ⟨i, hi, hn, hpos, hg⟩ := hw
    refine ⟨_, exec_setString text hm, ?_⟩
    rw [← hpos, setString_read hi hn hg, transmitted_indicator s.cfg s.sym q hpos]
  | enable =>
    obtain rfl : q = 0x0000#16 := hw
    obtain ⟨-, -, -, -, -, -, hdisp⟩ := enable_spec s
    exact ⟨_, exec_enable s, hdisp ▸ read_fillWrites_indicator hadm _ _ _⟩
  | clear =>
    obtain rfl : q = 0x0000#16 := hw
    exact ⟨_, exec_clear hm, (fill_writes _ s).disp ▸ read_fillWrites_indicator hadm _ _ _⟩
  | allOn =>
    obtain rfl : q = 0xFFFF#16 := hw
    exact ⟨_, exec_allOn hm, (fill_writes _ s).disp ▸ read_fillWrites_indicator hadm _ _ _⟩
  | _ => exact hw.elim

/-- Both symbol operations write SYM and nothing else (R108, R109). -/
theorem exec_symbolChange {s : State} {mask v : BitVec 2} {i : Instr} (hm : s.mode = .enabled)
    (h : (i = .setSymbol mask ∧ v = s.sym ||| mask) ∨ (i = .unsetSymbol mask ∧ v = s.sym &&& ~~~mask)) :
    exec i s = .next { s with sym := v } := by
  obtain ⟨rfl, rfl⟩ | ⟨rfl, rfl⟩ := h
  · exact setSymbolOrsTheMask s mask hm
  · exact unsetSymbolClearsTheMask s mask hm

/-- Settles O55: a symbol operation writes SYM alone, every writer of INDICATOR_POS goes through the overlay of the SYM
it finds, and the overlay has each symbol bit exactly when its flag is set. -/
theorem symbolChangesShowOnTheNextWrite : Obligations.SymbolChangesShowOnTheNextWrite := by
  unfold Obligations.SymbolChangesShowOnTheNextWrite
  intro s mask v i hm hadm hi
  refine ⟨{ s with sym := v }, exec_symbolChange hm hi, rfl, rfl, rfl, fun t w q hmt hcfg hsym hw => ?_, fun q => ?_⟩
  · rw [← hcfg] at hadm hw ⊢
    rw [← hsym]
    exact exec_writesIndicator hmt hadm hw
  · obtain ⟨hcolonSet, hcolonClear⟩ := symbolBit_of_flag (overlay_and_segColon hadm v) q
    obtain ⟨hdotSet, hdotClear⟩ := symbolBit_of_flag (overlay_and_segDot hadm v) q
    exact ⟨hcolonSet, hcolonClear, hdotSet, hdotClear⟩

end Sys2Proof.Machine
